-- ==== Sys2Proof/Word.lean ====
section
/-!
DEFINITION. The two widths of the block: `u8` and `u32` (R9). A hash value, a seed, a command word and a response
word are all 32 bits (R8, `W`); a bucket and a payload byte are 8 bits. The arithmetic on them is in
`Machine/Arith.lean`.
-/

namespace Sys2Proof

/-- `u8`: a payload byte or a bucket (R9, R25, R43). -/
abbrev Byte := BitVec 8

/-- `u32`: a word of either port, a hash value, a seed, `REQ_SIZE` (R8, R9, R60). -/
abbrev Word := BitVec 32

end Sys2Proof
end

