-- ==== Sys2Proof/Config.lean ====
section
/-!
DEFINITION. What one implementation of the block fixes: the parameters of R8. The constants the source fixes (`M`,
`R`, 13, 15, `UNIT`, the first seed, R6) stand beside the rules that use them, in `Machine/HashMixer.lean` and
`Machine/Operands.lean`. There is no free value: the spec leaves no result open.
-/

namespace Sys2Proof

/-- `MAX_BUCKETS` (R8, D17): the capacity of the physical bit array in buckets, at the spec's default.
DESIGN CHOICE (log entry 1): the spec makes it a parameter with this default; `Machine.constructFilter` takes it as an
argument, and only `Machine.execConfig` gives it this value. -/
def Config.maxBuckets : Nat := 8191

/-- The range of `MAX_BUCKETS` (92_eei_decisions.md, the table of named parameters): odd, at least 1, at most
2^29 - 1. -/
abbrev Config.LegalMaxBuckets (n : Nat) : Prop := n % 2 = 1 ∧ 1 ≤ n ∧ n ≤ 536870911

/-- `MAX_LEN` (R8, D34): the greatest payload length in bytes, fixed by the 16-bit `LEN` field. -/
def Config.maxLen : Nat := 65535

end Sys2Proof
end

