-- ==== Sys2Proof/Syntax.lean ====
section
/-!
DEFINITION. The commands of the set BFC-1 (R2, R61 to R66), one constructor per row of `spec/opcode_table.json`.

A command carries its must-be-zero field (`len` of `CONFIG`, `k` of the other three), because decoding is by `OPC`
alone (R76) and the field is checked when the command is executed (R70). The payload is held as its bytes `B[0]`,
`B[1]`, ... (R43), so `LEN` is their number; padding lanes are no part of it (R67, log entry 10).
-/

namespace Sys2Proof

/-- The four commands (R2, R63). -/
inductive Instr where
  /-- `CONFIG size, k` (R64, R142): the `K` field, the must-be-zero `LEN` field, `REQ_SIZE`. -/
  | config (k : BitVec 8) (len : BitVec 16) (reqSize : Word)
  /-- `HASH seed, bytes` (R65, R98): the must-be-zero `K` field, `SEED`, the payload. -/
  | hash (k : BitVec 8) (seed : Word) (payload : List Byte)
  /-- `ADD bytes` (R66, R144): the must-be-zero `K` field, the payload. -/
  | add (k : BitVec 8) (payload : List Byte)
  /-- `QUERY bytes` (R66, R145): the must-be-zero `K` field, the payload. -/
  | query (k : BitVec 8) (payload : List Byte)
  deriving DecidableEq, Repr

/-- The payload a command carries (R13, R43); `CONFIG` carries none. -/
def Instr.payload : Instr → List Byte
  | .config _ _ _ => []
  | .hash _ _ p => p
  | .add _ p => p
  | .query _ p => p

end Sys2Proof
end

