-- ==== Sys2Proof/WellFormed.lean ====
section
/-!
DEFINITION. Which values of `Instr` are commands a host can send: the payload length must fit the 16-bit `LEN` field
(R62, D34). Nothing else is ill-formed: every `K`, `LEN`, `REQ_SIZE`, `SEED` and payload byte is accepted (R70), and a
command whose must-be-zero field is not 0 is still a command, answered with `E_FIELD`.
-/

namespace Sys2Proof

/-- The command has an encoding: its payload is at most `MAX_LEN` bytes (R8, R62). -/
abbrev Instr.WellFormed (i : Instr) : Prop := i.payload.length ≤ Config.maxLen

end Sys2Proof
end

