-- ==== Sys2Proof/Decode.lean ====
section
/-!
DEFINITION. The header (R62), the opcodes (R63), payload packing and unpacking (R67), the length of a command (R71),
the decoder over the command port's words (R61, R76) and, after it, the encoder (R64 to R67).
-/

namespace Sys2Proof

/-! ### Header and opcodes -/

/-- `OPC = 0x01` (R63). -/
def opcConfig : BitVec 8 := 0x01
/-- `OPC = 0x02` (R63). -/
def opcHash : BitVec 8 := 0x02
/-- `OPC = 0x03` (R63). -/
def opcAdd : BitVec 8 := 0x03
/-- `OPC = 0x04` (R63). -/
def opcQuery : BitVec 8 := 0x04

/-- `HDR[31:24]`, the opcode (R62). -/
def hdrOpc (hdr : Word) : BitVec 8 := hdr.extractLsb' 24 8
/-- `HDR[23:16]`, the `K` field (R62). -/
def hdrK (hdr : Word) : BitVec 8 := hdr.extractLsb' 16 8
/-- `HDR[15:0]`, the `LEN` field (R62). -/
def hdrLen (hdr : Word) : BitVec 16 := hdr.extractLsb' 0 16

/-- The header word `{OPC, K, LEN}` (R62). -/
def header (opc : BitVec 8) (k : BitVec 8) (len : BitVec 16) : Word := opc ++ k ++ len

/-! ### Bytes and words, little-endian (R45, R67, R99) -/

/-- `enc32` (R99): the four byte lanes of a word, least significant first. -/
def enc32 (w : Word) : List Byte :=
  [w.extractLsb' 0 8, w.extractLsb' 8 8, w.extractLsb' 16 8, w.extractLsb' 24 8]

/-- `dec32` (R99) and `word(B, i)` (R92): `{b3, b2, b1, b0}`, each byte in its own lane (D9, D10). -/
def dec32 (b0 b1 b2 b3 : Byte) : Word := b3 ++ b2 ++ b1 ++ b0

/-- `ceil(n / 4)`: the payload words that carry `n` bytes (R67). -/
def payloadWords (n : Nat) : Nat := (n + 3) / 4

/-- `B[0..n-1]` out of the payload words (R67): lanes at offsets `>= n` are padding and are dropped unread. -/
def unpackPayload (n : Nat) (ws : List Word) : List Byte := (ws.flatMap enc32).take n

/-- The payload words of a byte sequence, padding lanes zero (R67, R73). -/
def packPayload : List Byte → List Word
  | b0 :: b1 :: b2 :: b3 :: t => dec32 b0 b1 b2 b3 :: packPayload t
  | [b0, b1, b2] => [dec32 b0 b1 b2 0]
  | [b0, b1] => [dec32 b0 b1 0 0]
  | [b0] => [dec32 b0 0 0 0]
  | [] => []

/-! ### The decoder -/

/-- `cmdlen(HDR)` (R71): the words of the command whose header this is, the header among them. -/
def cmdlen (hdr : Word) : Nat :=
  if hdrOpc hdr = opcConfig then 2
  else if hdrOpc hdr = opcHash then 2 + payloadWords (hdrLen hdr).toNat
  else if hdrOpc hdr = opcAdd ∨ hdrOpc hdr = opcQuery then 1 + payloadWords (hdrLen hdr).toNat
  else 1

/-- What stands at the front of the command port. -/
inductive Decoded where
  /-- No whole command has arrived yet: no header, or fewer than `cmdlen` words (R61, R71). -/
  | waiting
  /-- A header with a reserved opcode, and the words after it (R69). -/
  | reserved (opc : BitVec 8) (rest : List Word)
  /-- A whole command, and the words after it (R71). -/
  | command (i : Instr) (rest : List Word)
  deriving DecidableEq, Repr

/-- The command with header `hdr` whose other words are `operands`, `cmdlen hdr - 1` of them; decoded by `OPC` alone
(R64 to R66, R76). -/
def decodeWhole (hdr : Word) (operands rest : List Word) : Decoded :=
  let n := (hdrLen hdr).toNat
  if hdrOpc hdr = opcConfig then
    .command (.config (hdrK hdr) (hdrLen hdr) (operands.headD 0)) rest
  else if hdrOpc hdr = opcHash then
    .command (.hash (hdrK hdr) (operands.headD 0) (unpackPayload n operands.tail)) rest
  else if hdrOpc hdr = opcAdd then
    .command (.add (hdrK hdr) (unpackPayload n operands)) rest
  else if hdrOpc hdr = opcQuery then
    .command (.query (hdrK hdr) (unpackPayload n operands)) rest
  else .reserved (hdrOpc hdr) rest

/-- Reads one command off the front of the command port (R61, R71, R76): total on any words, and a function of the
words alone. -/
def decode : List Word → Decoded
  | [] => .waiting
  | hdr :: ws =>
    if ws.length + 1 < cmdlen hdr then .waiting
    else decodeWhole hdr (ws.take (cmdlen hdr - 1)) (ws.drop (cmdlen hdr - 1))

/-! ### The encoder -/

/-- The opcode of a command (R63). -/
def Instr.opc : Instr → BitVec 8
  | .config _ _ _ => opcConfig
  | .hash _ _ _ => opcHash
  | .add _ _ => opcAdd
  | .query _ _ => opcQuery

/-- The words of a command, header first (R64 to R67). -/
def encode : Instr → List Word
  | .config k len reqSize => [header opcConfig k len, reqSize]
  | .hash k seed p => header opcHash k (BitVec.ofNat 16 p.length) :: seed :: packPayload p
  | .add k p => header opcAdd k (BitVec.ofNat 16 p.length) :: packPayload p
  | .query k p => header opcQuery k (BitVec.ofNat 16 p.length) :: packPayload p

/-! ### One row of the opcode table -/

/-- The words of the instruction whose bits are `w`, numbered as `spec/opcode_table.json` numbers them (bit 0 of the
first word is bit 0 of `w`, the second word is bits 63..32, ...): bits at or above `nbits` are 0, and there are exactly
`cmdlen` words. -/
def tableWords (nbits w : Nat) : List Word :=
  let bits := w % 2 ^ nbits
  (List.range (cmdlen (BitVec.ofNat 32 bits))).map fun j => BitVec.ofNat 32 (bits >>> (32 * j))

/-- The instruction the decoder reads from those words; none where it is no command. -/
def decodeTableWord (nbits w : Nat) : Option Instr :=
  match decode (tableWords nbits w) with
  | .command i _ => some i
  | .reserved _ _ => none
  | .waiting => none

end Sys2Proof
end

