-- ==== Sys2Proof/Machine/State.lean ====
section
/-!
DEFINITION. Everything the spec gives the machine (R15, R22 to R25, and the ports and the reset input of R60), the
reasons a step can stop, and the state after reset (R29, R201).
-/

namespace Sys2Proof.Machine

/-- The buckets of the bit array, as (bucket index, byte) pairs: indices strictly rising, no byte `0x00` listed. A
bucket that is not listed holds `0x00`, the value `CONFIG` writes to every bucket (R142, log entry 4). Which buckets
exist is `SIZE`'s to say (R41, R55). -/
abbrev Memory := List Host.Cell

/-- The canonical form of `Memory`. -/
abbrev Memory.wf (m : Memory) : Prop :=
  m.Pairwise (fun c d => c.1 < d.1) ∧ ∀ c ∈ m, c.2 ≠ 0

/-- The state of the block and of its two ports. -/
structure State where
  /-- `CONFIGURED` (R22), 1 bit: a filter has been constructed since reset. -/
  configured : Bool
  /-- `K` (R23), 8 bits: the rounds of one `ADD` or `QUERY`. -/
  k : BitVec 8
  /-- `SIZE` (R24), 30 bits, as a natural number (C7): the number of buckets of the filter. -/
  size : Nat
  /-- `BITS` (R25): the buckets 0 to `SIZE - 1`. -/
  bits : Memory
  /-- The command port (R60): the words sent and not yet consumed, oldest first. -/
  cmd : List Word
  /-- The response port (R60): the words produced and not yet taken, oldest first. -/
  rsp : List Word
  /-- The level of the reset input `rst` (R200): true while it is asserted (log entry 3). -/
  rst : Bool
  deriving DecidableEq, Repr

/-- The reasons the machine can stop with a fault. -/
inductive Fault where
  /-- A read or write of bucket `a` with `a >= SIZE`, which does not exist (R41, R55). Raised by `ADD` and `QUERY`
  through `memRead` and `memWrite`. Safe: no state meeting `State.Inv` raises it (R126), and the model stops where a
  state that no run reaches would have no meaning. -/
  | noSuchBucket (a : Nat)
  deriving DecidableEq, Repr

/-- The reasons a step can have no meaning. -/
inductive Refusal where
  /-- The instruction has no meaning in the model yet. Raised by no arm of `exec`: all four commands have theirs.
  Safe: the model would stop where the hardware goes on. -/
  | notModelled (mnemonic : String)
  deriving DecidableEq, Repr

/-- The state after reset (R29, R201): `CONFIGURED = 0`, `K = 0`, `SIZE = 0`, both ports empty, no command in
progress, `rst` released. The buckets are unspecified there; with `SIZE = 0` none of them exists, so none can be read
(R29, log entry 4). -/
def State.reset : State where
  configured := false
  k := 0
  size := 0
  bits := []
  cmd := []
  rsp := []
  rst := false

end Sys2Proof.Machine
end

