-- ==== Sys2Proof/Machine/Arith.lean ====
section
/-!
DEFINITION. The arithmetic primitives of R10, total, none faulting.
-/

namespace Sys2Proof.Machine

/-- `xor32(a, b)` (R10, R102). -/
def xor32 (a b : Word) : Word := a ^^^ b

/-- `or8(a, b)` (R10). -/
def or8 (a b : Byte) : Byte := a ||| b

/-- `mul32(a, b)`, the low 32 bits of the product (R10, R100). The factors commute; they stand in this order so that
the constant of `mul32(h, M)` comes first, where Lean's kernel does not unfold the product into `M` additions. -/
def mul32 (a b : Word) : Word := b * a

/-- `asr32(a, s)`, the arithmetic right shift (R10, R101). -/
def asr32 (a : Word) (s : Nat) : Word := a.sshiftRight s

/-- `shl32(a, s)` (R10, R102). -/
def shl32 (a : Word) (s : Nat) : Word := a <<< s

/-- `zext_32(v)` of a byte (R9). -/
def zext32 (b : Byte) : Word := b.setWidth 32

/-- `emod(z, n)`, the Euclidean remainder (R10), as the natural number it is for `n >= 1`. -/
def emod (z : Int) (n : Nat) : Nat := (z % (n : Int)).toNat

/-- `udiv(a, n)`, unsigned division rounding down (R10, R103). -/
def udiv (a n : Nat) : Nat := a / n

end Sys2Proof.Machine
end

