-- ==== Sys2Proof/Machine/Flags.lean ====
section
/-!
DEFINITION. There are no stored condition flags (R26): `ERR`, `MATCH` and the copy of `CONFIGURED` are fields of the
response word `RSP0` (R68). Here are the error codes (R172) and the word itself.
-/

namespace Sys2Proof.Machine

/-- The causes a response can report (R172). -/
inductive Err where
  /-- The command executed. -/
  | none
  /-- `E_OPCODE`: the opcode is reserved (R173). -/
  | opcode
  /-- `E_FIELD`: a must-be-zero header field is not 0 (R174). -/
  | field
  /-- `E_NOCFG`: `ADD` or `QUERY` with `CONFIGURED = 0` (R175). -/
  | noCfg
  /-- `E_CAPACITY`: `norm(REQ_SIZE) > MAX_BUCKETS` (R176). -/
  | capacity
  deriving DecidableEq, Repr

/-- The `ERR` field's code (R172). -/
def Err.code : Err → BitVec 8
  | .none => 0x00
  | .opcode => 0x01
  | .field => 0x02
  | .noCfg => 0x03
  | .capacity => 0x04

/-- `RSP0 = {OPC, 14 zero bits, CONFIGURED, MATCH, ERR}` (R68). -/
def rsp0 (opc : BitVec 8) (configured matched : Bool) (e : Err) : Word :=
  opc ++ 0#14 ++ BitVec.ofBool configured ++ BitVec.ofBool matched ++ e.code

end Sys2Proof.Machine
end

