-- ==== Sys2Proof/Machine/Operands.lean ====
section
/-!
DEFINITION. How an operand becomes a value (R75): the size normalisation of `REQ_SIZE` (R141). `K` and `SEED` are used
as they are, the payload's length enters the hash in `Machine/HashMixer.lean`, and there are no scaled or sign-extended
immediates anywhere.
-/

namespace Sys2Proof.Machine

/-- `UNIT` (R6, R7, R129): bits per bucket, a compile-time constant. -/
def unit8 : Nat := 8

/-- `norm(rs)` (R141), in natural numbers: clamp to `UNIT`, divide by `UNIT`, make odd. -/
def normSize (reqSize : Word) : Nat :=
  let rs := if reqSize.toNat < unit8 then unit8 else reqSize.toNat
  let buckets := udiv rs unit8
  if buckets % 2 = 0 then buckets + 1 else buckets

end Sys2Proof.Machine
end

