-- ==== Sys2Proof/Machine/Ops.lean ====
section
/-!
DEFINITION. The named operations every command is made of: access to the bit array (R41, R44, R140), the response
(R68), the error response, which is this block's way of taking an exception (R171), and reset (R200).
-/

namespace Sys2Proof.Machine

/-! ### The bit array as data -/

/-- The byte at index `a`; an index that is not listed holds `0x00`. -/
def Memory.read : Memory → Nat → Byte
  | [], _ => 0
  | c :: t, a => if c.1 = a then c.2 else Memory.read t a

/-- The memory with `v` at index `a`, in canonical form. -/
def Memory.write : Memory → Nat → Byte → Memory
  | [], a, v => if v = 0 then [] else [(a, v)]
  | c :: t, a, v =>
    if c.1 < a then c :: Memory.write t a v
    else
      let above := if c.1 = a then t else c :: t
      if v = 0 then above else (a, v) :: above

/-- Every bucket `0x00`: what the sweep of `CONFIG` leaves (R142). -/
def Memory.zeroed : Memory := []

/-! ### Access to a bucket -/

/-- `MemRead(a, 1)` (R41): defined for `a < SIZE` only. -/
def memRead (s : State) (a : Nat) : Except Fault Byte :=
  if a < s.size then .ok (s.bits.read a) else .error (.noSuchBucket a)

/-- `MemWrite(a, 1, v)` (R41): defined for `a < SIZE` only; changes no other bucket. -/
def memWrite (s : State) (a : Nat) (v : Byte) : Except Fault State :=
  if a < s.size then .ok { s with bits := s.bits.write a v } else .error (.noSuchBucket a)

/-- `mask(b)` (R140): the one-bit mask of weight `2^b` (R42). -/
def mask (b : Nat) : Byte := 1#8 <<< b

/-- Bit `b` of a bucket read as an unsigned byte (R42, R140, R152). -/
def bucketBit (v : Byte) (b : Nat) : Bool := v.toNat >>> b % 2 = 1

/-- `set_bit(a, b)` (R140): read the bucket, OR in the mask, write it back (R44). -/
def setBit (s : State) (a b : Nat) : Except Fault State :=
  match memRead s a with
  | .error f => .error f
  | .ok v => memWrite s a (or8 v (mask b))

/-- `test_bit(a, b)` (R140). -/
def testBit (s : State) (a b : Nat) : Except Fault Bool :=
  match memRead s a with
  | .error f => .error f
  | .ok v => .ok (bucketBit v b)

/-- `set_bit` for every pair of a list, in order (R144). -/
def setBits (s : State) : List (Nat × Nat) → Except Fault State
  | [] => .ok s
  | p :: t =>
    match setBit s p.1 p.2 with
    | .error f => .error f
    | .ok s' => setBits s' t

/-- `test_bit` for the pairs of a list, in order, stopping at the first that is clear (R145, R146). -/
def testBits (s : State) : List (Nat × Nat) → Except Fault Bool
  | [] => .ok true
  | p :: t =>
    match testBit s p.1 p.2 with
    | .error f => .error f
    | .ok false => .ok false
    | .ok true => testBits s t

/-- The outcome of a command whose bucket accesses gave `r`: the next state made from their result, or the fault of the
access that met no bucket. -/
def orFault {α : Type} (r : Except Fault α) (f : α → State) : Host.Outcome State Fault Refusal :=
  match r with
  | .error e => .fault e
  | .ok a => .next (f a)

/-! ### The response and the error response -/

/-- `respond(err, match, data)` (R68): two words on the response port, `CONFIGURED` as it is after the command. -/
def respond (opc : BitVec 8) (e : Err) (matched : Bool) (data : Word) (s : State) : State :=
  { s with rsp := s.rsp ++ [rsp0 opc s.configured matched e, data] }

/-- `raise E(info)` (R171): the response of a refused command. No state is saved, no mode changes, control goes
nowhere: the command's words are consumed and the response says why. There is no return from it (R180). -/
def raise (opc : BitVec 8) (e : Err) (s : State) : State := respond opc e false 0 s

/-! ### Reset -/

/-- The block while `rst` is asserted (R200 to R202): everything at its reset value, both ports empty, the pin still
asserted. -/
def heldInReset : State := { State.reset with rst := true }

end Sys2Proof.Machine
end

