-- ==== Sys2Proof/Machine/HashMixer.lean ====
section
/-!
DEFINITION. The 32-bit mixing hash (R90 to R97) and the `HASH` command (R98). Rules R91 to R97 define the function; no
implementation known under another name does (R90, C4).
-/

namespace Sys2Proof.Machine

/-! ### The constants the source fixes (R6), taken as written (U9, log entry 14) -/

/-- `M`, the multiplier. -/
def mulM : Word := 0x5bd1e995
/-- `R`, the shift inside the chunk mix. -/
def shiftR : Nat := 24
/-- The first finalisation shift. -/
def shift1 : Nat := 13
/-- The second finalisation shift. -/
def shift2 : Nat := 15

/-! ### The function -/

/-- `init(n, seed)` (R91): the seed xor the number of payload bytes, as a 32-bit value. -/
def hashInit (n : Nat) (seed : Word) : Word := xor32 seed (BitVec.ofNat 32 n)

/-- `mixk(k0)` (R93). -/
def mixK (k0 : Word) : Word :=
  let k1 := mul32 k0 mulM
  let k2 := xor32 k1 (asr32 k1 shiftR)
  mul32 k2 mulM

/-- `step(h, k0)` (R93): one chunk word folded into `h`. -/
def mixStep (h k0 : Word) : Word := xor32 (mul32 h mulM) (mixK k0)

/-- `chunks(B, n, h)` (R94): whole chunks folded into `h` in increasing order of offset; gives the new `h` and the
tail bytes, fewer than four. -/
def hashChunks : Word → List Byte → Word × List Byte
  | h, b0 :: b1 :: b2 :: b3 :: t => hashChunks (mixStep h (dec32 b0 b1 b2 b3)) t
  | h, t => (h, t)

/-- `tail(B, t, r, h)` (R95): the tail bytes folded in by xor, the last one first, then one multiply; nothing when
there is no tail. -/
def hashTail (h : Word) : List Byte → Word
  | [b0, b1, b2] =>
    mul32 (xor32 (xor32 (xor32 h (shl32 (zext32 b2) 16)) (shl32 (zext32 b1) 8)) (zext32 b0)) mulM
  | [b0, b1] => mul32 (xor32 (xor32 h (shl32 (zext32 b1) 8)) (zext32 b0)) mulM
  | [b0] => mul32 (xor32 h (zext32 b0)) mulM
  | _ => h

/-- `fin(h)` (R96), both shifts arithmetic. -/
def hashFin (h : Word) : Word :=
  let f1 := xor32 h (asr32 h shift1)
  let f2 := mul32 f1 mulM
  xor32 f2 (asr32 f2 shift2)

/-- `hash(B, n, seed)` (R97), `n` the length of the byte sequence. -/
def hash32 (bytes : List Byte) (seed : Word) : Word :=
  let c := hashChunks (hashInit bytes.length seed) bytes
  hashFin (hashTail c.1 c.2)

/-! ### The command -/

/-- `HASH seed, bytes` (R98): answers the hash, touches no state, needs no filter. -/
def execHash (k : BitVec 8) (seed : Word) (payload : List Byte) (s : State) : Host.Outcome State Fault Refusal :=
  if k ≠ 0 then .next (raise opcHash .field s)
  else .next (respond opcHash .none false (hash32 payload seed) s)

end Sys2Proof.Machine
end

