-- ==== Sys2Proof/Machine/BitIndexer.lean ====
section
/-!
DEFINITION. The bit_indexer: the chain of seeds (R120) and the (bucket, bit) pair of each round (R121 to R125). It has
no command of its own; `ADD` and `QUERY` use it identically (R128).
-/

namespace Sys2Proof.Machine

/-- The first seed of the chain (R6, R120). -/
def seed0 : Word := 0

/-- The hash values of a number of rounds from the seed `s`: each is the seed of the next (R120). -/
def chainFrom (bytes : List Byte) : Word → Nat → List Word
  | _, 0 => []
  | s, rounds + 1 => hash32 bytes s :: chainFrom bytes (hash32 bytes s) rounds

/-- `chain(B, n, K)` (R120). -/
def chain (bytes : List Byte) (rounds : Nat) : List Word := chainFrom bytes seed0 rounds

/-- `bucket_index(h, SIZE)` (R121, R123): the Euclidean remainder of the signed hash. -/
def bucketIndex (h : Word) (size : Nat) : Nat := emod h.toInt size

/-- `bit_index(h)` (R122). -/
def bitIndex (h : Word) : Nat := emod h.toInt unit8

/-- `index(h, SIZE)` (R125). -/
def indexPair (size : Nat) (h : Word) : Nat × Nat := (bucketIndex h size, bitIndex h)

/-- `indices(B, n, K, SIZE)` (R125): the pairs of one item, round by round. -/
def indices (bytes : List Byte) (rounds size : Nat) : List (Nat × Nat) :=
  (chain bytes rounds).map (indexPair size)

end Sys2Proof.Machine
end

