-- ==== Sys2Proof/Machine/FilterOps.lean ====
section
/-!
DEFINITION. The filter commands `CONFIG` (R142), `ADD` (R144) and `QUERY` (R145). Every check comes before every write
(R171), `E_FIELD` before the checks that read state (R177).
-/

namespace Sys2Proof.Machine

/-- `CONFIG` on a block whose physical array has `maxBuckets` buckets (R142, R153, R176). -/
def constructFilter (maxBuckets : Nat) (k : BitVec 8) (len : BitVec 16) (reqSize : Word) (s : State) : State :=
  if len ≠ 0 then raise opcConfig .field s
  else if normSize reqSize > maxBuckets then raise opcConfig .capacity s
  else
    respond opcConfig .none false (BitVec.ofNat 32 (normSize reqSize))
      { s with k := k, size := normSize reqSize, bits := Memory.zeroed, configured := true }

/-- `CONFIG size, k` (R142), with the model's `MAX_BUCKETS`. -/
def execConfig (k : BitVec 8) (len : BitVec 16) (reqSize : Word) (s : State) : Host.Outcome State Fault Refusal :=
  .next (constructFilter Config.maxBuckets k len reqSize s)

/-- `ADD bytes` (R144): sets the bit of every round; the rounds come from the register `K`. -/
def execAdd (k : BitVec 8) (payload : List Byte) (s : State) : Host.Outcome State Fault Refusal :=
  if k ≠ 0 then .next (raise opcAdd .field s)
  else if s.configured = false then .next (raise opcAdd .noCfg s)
  else orFault (setBits s (indices payload s.k.toNat s.size)) fun s' => respond opcAdd .none false 0 s'

/-- `QUERY bytes` (R145): `MATCH = 1` exactly when the bit of every round is set; writes no state. -/
def execQuery (k : BitVec 8) (payload : List Byte) (s : State) : Host.Outcome State Fault Refusal :=
  if k ≠ 0 then .next (raise opcQuery .field s)
  else if s.configured = false then .next (raise opcQuery .noCfg s)
  else orFault (testBits s (indices payload s.k.toNat s.size)) fun m => respond opcQuery .none m 0 s

end Sys2Proof.Machine
end

