-- ==== Sys2Proof/Machine/Dispatch.lean ====
section
/-!
DEFINITION. One arm per command (R63): the meaning of each, its words already consumed.
-/

namespace Sys2Proof.Machine

def exec (i : Instr) (s : State) : Host.Outcome State Fault Refusal :=
  match i with
  | .config k len reqSize => Sys2Proof.Machine.execConfig k len reqSize s
  | .hash k seed payload => Sys2Proof.Machine.execHash k seed payload s
  | .add k payload => Sys2Proof.Machine.execAdd k payload s
  | .query k payload => Sys2Proof.Machine.execQuery k payload s

end Sys2Proof.Machine
end

