-- ==== Sys2Proof/Machine/Fetch.lean ====
section
/-!
DEFINITION. What `step` does at the command port besides executing a command: take the words of one command off it
(R61, R71), answer a reserved opcode (R69, R173), wait for words that have not come (R61, R182).
-/

namespace Sys2Proof.Machine

/-- The command at the front of the command port (R61, R76). -/
def fetch (s : State) : Decoded := decode s.cmd

/-- The words of a command are consumed, `rest` is what follows them (R71). -/
def consume (rest : List Word) (s : State) : State := { s with cmd := rest }

/-- `E_OPCODE` (R69, R173): the one word is consumed and the opcode echoed in the response; no state changes. -/
def refuseReserved (opc : BitVec 8) (rest : List Word) (s : State) : State :=
  raise opc .opcode (consume rest s)

/-- Idle, or a command partly received: nothing changes until the host sends the words (R61, R182, log entry 5). -/
def awaitWords (s : State) : State := s

/-- The state with the words of one table row at the front of the command port and `rst` released, so that the next
step takes and runs that command. -/
def placeTableWord (s : State) (nbits w : Nat) : State :=
  { s with cmd := tableWords nbits w ++ s.cmd, rst := false }

end Sys2Proof.Machine
end

