-- ==== Sys2Proof/Machine/Step.lean ====
section
/-!
DEFINITION. One step of the block: one whole command, atomically (R18, R49), or the response to a reserved opcode, or
waiting, or being held in reset (R200).
-/

namespace Sys2Proof.Machine

/-- One step. -/
def step (s : State) : Host.Outcome State Fault Refusal :=
  if s.rst then .next heldInReset
  else
    match fetch s with
    | .waiting => .next (awaitWords s)
    | .reserved opc rest => .next (refuseReserved opc rest s)
    | .command i rest => exec i (consume rest s)

/-- `s` with the instruction of one opcode-table row, its bits numbered as the table numbers them, where `step` takes
its next command: the front of the command port (log entry 6). -/
def State.withFetchWord (s : State) (nbits w : Nat) : State := placeTableWord s nbits w

end Sys2Proof.Machine
end

