-- ==== Sys2Proof/Machine/Assembler.lean ====
section
/-!
DEFINITION. The textual notation of commands (R73), as a tree of operands: what each line of it means in words. The
notation is the host's; the block sees only the words (D28, D29, log entry 12).
-/

namespace Sys2Proof.Machine

/-- `bytes` of R73: quoted text, or a list of bytes; `[]` is `hex []`. -/
inductive AsmBytes where
  | text (cs : List Char)
  | hex (bs : List Byte)
  deriving DecidableEq, Repr

/-- One command line of R73. -/
inductive AsmLine where
  | config (size k : Nat)
  | hash (seed : Int) (bytes : AsmBytes)
  | add (bytes : AsmBytes)
  | query (bytes : AsmBytes)
  deriving DecidableEq, Repr

/-- The bytes of an operand (R73): text is one ASCII code a character, first character first, no terminator; a
character outside ASCII has no meaning in the notation. -/
def asmBytes : AsmBytes → Option (List Byte)
  | .hex bs => some bs
  | .text cs => if cs.all (fun c => c.toNat < 128) then some (cs.map fun c => BitVec.ofNat 8 c.toNat) else none

/-- The payload of an operand (R73): its bytes, where a command can carry them (`MAX_LEN`, D34). -/
def asmPayload (b : AsmBytes) : Option (List Byte) := (asmBytes b).filter fun p => p.length ≤ Config.maxLen

/-- The command a line stands for (R73): `size` below 2^32, `k` below 256, `seed` taken modulo 2^32; a must-be-zero
field is written 0. -/
def asmInstr : AsmLine → Option Instr
  | .config size k =>
    if size < 2 ^ 32 ∧ k < 256 then some (.config (BitVec.ofNat 8 k) 0 (BitVec.ofNat 32 size)) else none
  | .hash seed bytes => (asmPayload bytes).map (.hash 0 (BitVec.ofInt 32 seed))
  | .add bytes => (asmPayload bytes).map (.add 0)
  | .query bytes => (asmPayload bytes).map (.query 0)

/-- The words of a line: `LEN` computed from the bytes, packing by R67 with zero padding (R73). -/
def assemble (l : AsmLine) : Option (List Word) := (asmInstr l).map encode

end Sys2Proof.Machine
end

