-- ==== Sys2Proof/Machine/HostPort.lean ====
section
/-!
DEFINITION. The second agent (R14): what the host may do to the block (R60, R200, R202, R208), and runs: of both
agents, with the words the host takes; of whole commands (R49); of commands with resets between them, with their
result, the responses and the final state (R210). The host moves between steps, in any order; it has no other move
(R47, R208).
-/

namespace Sys2Proof.Machine

/-! ### The host's moves -/

/-- The host sends words (R60). While `rst` is asserted the block accepts none (R200): they stay with the host. -/
def sendWords (ws : List Word) (s : State) : State :=
  if s.rst then s else { s with cmd := s.cmd ++ ws }

/-- The host takes the oldest word off the response port (R60), if there is one. -/
def takeWord (s : State) : State := { s with rsp := s.rsp.tail }

/-- The host asserts `rst` (R200, R202): a command partly received and responses not yet taken are gone at once. -/
def assertReset (_s : State) : State := heldInReset

/-- The host releases `rst` (R200). -/
def releaseReset (s : State) : State := { s with rst := false }

/-- What the host may do (R208). -/
inductive HostMove where
  | send (ws : List Word)
  | take
  | assertReset
  | releaseReset
  deriving DecidableEq, Repr

/-- The state after a move of the host. -/
def hostMove : HostMove → State → State
  | .send ws => sendWords ws
  | .take => takeWord
  | .assertReset => assertReset
  | .releaseReset => releaseReset

/-! ### Runs -/

/-- One event of a run of the block and its host: a move of the host, or a step of the block. -/
inductive Event where
  | host (m : HostMove)
  | block
  deriving DecidableEq, Repr

/-- A run of both agents: any interleaving of their events. -/
def runEvents : List Event → State → Host.Outcome State Fault Refusal
  | [], s => .next s
  | .host m :: es, s => runEvents es (hostMove m s)
  | .block :: es, s =>
    match step s with
    | .next s' => runEvents es s'
    | .fault f => .fault f
    | .refused r => .refused r

/-- A run of whole commands, in order, each atomic (R49, R210). -/
def runCommands : List Instr → State → Host.Outcome State Fault Refusal
  | [], s => .next s
  | i :: is, s =>
    match exec i s with
    | .next s' => runCommands is s'
    | .fault f => .fault f
    | .refused r => .refused r

/-- The word a move of the host takes off the response port, if it takes one (R60). -/
def takenBy : HostMove → State → List Word
  | .send _, _ => []
  | .take, s => s.rsp.head?.toList
  | .assertReset, _ => []
  | .releaseReset, _ => []

/-- A run of both agents with what the host has seen of it: the words it took, in order, and the last state. Words
dropped by a reset before the host took them are not among them (R202). -/
def runTaken : List Event → State → Host.Outcome (List Word × State) Fault Refusal
  | [], s => .next ([], s)
  | .host m :: es, s =>
    match runTaken es (hostMove m s) with
    | .next (ws, t) => .next (takenBy m s ++ ws, t)
    | .fault f => .fault f
    | .refused r => .refused r
  | .block :: es, s =>
    match step s with
    | .next s' => runTaken es s'
    | .fault f => .fault f
    | .refused r => .refused r

/-! ### The result of a run (R210) -/

/-- What the result of a run says of the state (R15, R210): `CONFIGURED`, `K`, `SIZE`, `BITS[0..SIZE-1]`; not the
ports. -/
structure FinalState where
  configured : Bool
  k : BitVec 8
  size : Nat
  bits : Memory
  deriving DecidableEq, Repr

/-- The final state of a run that ended in `s` (R210). -/
def finalOf (s : State) : FinalState := ⟨s.configured, s.k, s.size, s.bits⟩

/-- One item of a run (R210): a command, a header with a reserved opcode (a command the block refuses, R69), or a
reset between commands. -/
inductive RunItem where
  | command (i : Instr)
  | reserved (hdr : Word)
  | reset
  deriving DecidableEq, Repr

/-- The item has words to be sent, or is a reset: a command is well-formed, a reserved header has a reserved opcode. -/
def RunItem.wellFormed : RunItem → Prop
  | .command i => i.WellFormed
  | .reserved hdr => hdrOpc hdr ∉ [opcConfig, opcHash, opcAdd, opcQuery]
  | .reset => True

/-- The result of a run (R210): the responses, `RSP0` and `RSP1` of each, in order, and the final state. -/
structure RunResult where
  responses : List (Word × Word)
  final : FinalState
  deriving DecidableEq, Repr

/-- The responses whose words these are, two words each (R68). -/
def pairWords : List Word → List (Word × Word)
  | r0 :: r1 :: t => (r0, r1) :: pairWords t
  | _ => []

/-- The words of responses, in order (R68). -/
def responseWords (rs : List (Word × Word)) : List Word := rs.flatMap fun r => [r.1, r.2]

/-- A whole reset: `rst` asserted and released (R200). -/
def resetBlock (s : State) : State := releaseReset (assertReset s)

/-- What one item does to a block whose response port is empty (R49, R69, R200). -/
def runItem : RunItem → State → Host.Outcome State Fault Refusal
  | .command i, s => exec i s
  | .reserved hdr, s => .next (raise (hdrOpc hdr) .opcode s)
  | .reset, s => .next (resetBlock s)

/-- A run of items from a start state, with its result (R210): each item starts with an empty response port, and what
it leaves there is its response. A response produced before a reset is part of the result (log entry 16). -/
def runItems : List RunItem → State → Host.Outcome RunResult Fault Refusal
  | [], s => .next ⟨[], finalOf s⟩
  | x :: xs, s =>
    match runItem x { s with rsp := [] } with
    | .fault f => .fault f
    | .refused r => .refused r
    | .next t =>
      match runItems xs t with
      | .fault f => .fault f
      | .refused r => .refused r
      | .next r => .next ⟨pairWords t.rsp ++ r.responses, r.final⟩

/-- How a host performs an item at the ports: it sends the words, lets the block step, and takes the response; or it
asserts `rst`, lets the block step, and releases it (R208). -/
def performItem : RunItem → List Event
  | .command i => [.host (.send (encode i)), .block, .host .take, .host .take]
  | .reserved hdr => [.host (.send [hdr]), .block, .host .take, .host .take]
  | .reset => [.host .assertReset, .block, .host .releaseReset]

/-- The events of a whole run performed at the ports. -/
def performItems (xs : List RunItem) : List Event := xs.flatMap performItem

/-- The words of a run of commands, one after the other with nothing between them (R61). -/
def encodeAll (is : List Instr) : List Word := is.flatMap encode

end Sys2Proof.Machine
end

