-- ==== Sys2Proof/Safety.lean ====
section
/-!
DEFINITION. What every reachable state is, in the terms the claims use.
-/

namespace Sys2Proof.Machine

/-- The invariant of the block: the bit array is in canonical form and lies inside `0..SIZE-1` (R25, R55); with no
filter, `K` and `SIZE` are 0 (R29); with one, `SIZE` is odd and between 1 and `MAX_BUCKETS` (R24, R143). -/
structure State.Inv (s : State) : Prop where
  /-- The bit array is in canonical form. -/
  bits_wf : s.bits.wf
  /-- Only buckets below `SIZE` exist (R55). -/
  bits_below : ∀ c ∈ s.bits, c.1 < s.size
  /-- Before the first `CONFIG`, `K` and `SIZE` hold their reset values (R29). -/
  unconfigured : s.configured = false → s.k = 0 ∧ s.size = 0
  /-- With a filter, `SIZE` is odd and fits the physical array (R24, R143). -/
  size_legal : s.configured = true → s.size % 2 = 1 ∧ 1 ≤ s.size ∧ s.size ≤ Config.maxBuckets

/-- A command that constructs a filter: a `CONFIG` that no check refuses (R142). -/
def constructs : Instr → Bool
  | .config _ len reqSize => len = 0 ∧ normSize reqSize ≤ Config.maxBuckets
  | .hash _ _ _ => false
  | .add _ _ => false
  | .query _ _ => false

/-- Bit `b` of bucket `a` of the filter is set (R42). -/
def State.bitSet (s : State) (a b : Nat) : Bool := bucketBit (s.bits.read a) b

end Sys2Proof.Machine
end

