-- ==== Sys2Proof/Certificates/Slice0/Obligations.lean ====
section
/-!
DEFINITION. The statements for the provers, family by family, after the numbered rules of `spec/`. The functions of
`Sys2Proof.Claims` write a rule's pseudocode out in the rule's own shape (by offset, by round), so that a statement can
compare the model with it.

A statement whose rule the spec marks `[derived: ...]` says so: it formalises an inference of the spec's own.
-/

namespace Sys2Proof.Claims

open Sys2Proof.Machine

/-- `B[i]`; the claims use it below the payload's length only. -/
def byteAt (B : List Byte) (i : Nat) : Byte := B.getD i 0

/-- `word(B, i)` of R92, by shifts. -/
def wordAt (B : List Byte) (i : Nat) : Word :=
  zext32 (byteAt B i) ||| shl32 (zext32 (byteAt B (i + 1))) 8 ||| shl32 (zext32 (byteAt B (i + 2))) 16
    ||| shl32 (zext32 (byteAt B (i + 3))) 24

/-- The loop of R94: the chunks at offsets 0, 4, 8, ..., `floor(n / 4)` of them, in increasing order. -/
def chunksAt (B : List Byte) (h : Word) : Word :=
  (List.range (B.length / 4)).foldl (fun h j => mixStep h (wordAt B (4 * j))) h

/-- `tail(B, t, r, h)` of R95, line by line. -/
def tailAt (B : List Byte) (t r : Nat) (h : Word) : Word :=
  let h2 := if r = 3 then h ^^^ (zext32 (byteAt B (t + 2)) <<< 16) else h
  let h1 := if 2 ≤ r then h2 ^^^ (zext32 (byteAt B (t + 1)) <<< 8) else h2
  if 1 ≤ r then 0x5bd1e995#32 * (h1 ^^^ zext32 (byteAt B t)) else h1

/-- `fin(h)` of R96. -/
def finAt (h : Word) : Word :=
  let f1 := h ^^^ h.sshiftRight 13
  let f2 := 0x5bd1e995#32 * f1
  f2 ^^^ f2.sshiftRight 15

/-- `hash(B, n, seed)` of R97, `n` the length of `B`. -/
def hashAt (B : List Byte) (seed : Word) : Word :=
  let n := B.length
  let t := 4 * (n / 4)
  finAt (tailAt B t (n - t) (chunksAt B (seed ^^^ BitVec.ofNat 32 n)))

/-- The loop of `ADD` (R144), the seed carried from round to round. -/
def addLoop (B : List Byte) : Word → State → Nat → Except Fault State
  | _, s, 0 => .ok s
  | seed, s, r + 1 =>
    let h := hash32 B seed
    match setBit s (bucketIndex h s.size) (bitIndex h) with
    | .error f => .error f
    | .ok s' => addLoop B h s' r

/-- The loop of `QUERY` (R145), with its `break`. -/
def queryLoop (B : List Byte) : Word → State → Nat → Except Fault Bool
  | _, _, 0 => .ok true
  | seed, s, r + 1 =>
    let h := hash32 B seed
    match testBit s (bucketIndex h s.size) (bitIndex h) with
    | .error f => .error f
    | .ok false => .ok false
    | .ok true => queryLoop B h s r

/-- The response word of R68, field by field. -/
def answer (opc : BitVec 8) (configured matched : Bool) (err : BitVec 8) : Word :=
  opc ++ 0#14 ++ BitVec.ofBool configured ++ BitVec.ofBool matched ++ err

/-- The reset state as far as R201 gives it values: nothing is said of the buckets. -/
def inResetState (t : State) : Prop := t.configured = false ∧ t.k = 0 ∧ t.size = 0 ∧ t.cmd = [] ∧ t.rsp = []

/-- The must-be-zero field of a command is 0 (R70). -/
def fieldOk : Instr → Bool
  | .config _ len _ => len = 0
  | .hash k _ _ => k = 0
  | .add k _ => k = 0
  | .query k _ => k = 0

/-- The opcode in the response to an item of a run; a reset has none (R202). -/
def itemOpc : RunItem → List (BitVec 8)
  | .command i => [i.opc]
  | .reserved hdr => [hdr.extractLsb' 24 8]
  | .reset => []

/-- The error code of a command in a state, in the priority of R177. -/
def errorOf (i : Instr) (s : State) : BitVec 8 :=
  if fieldOk i = false then 0x02
  else
    match i with
    | .config _ _ rs => if normSize rs ≤ Config.maxBuckets then 0x00 else 0x04
    | .hash _ _ _ => 0x00
    | .add _ _ => if s.configured then 0x00 else 0x03
    | .query _ _ => if s.configured then 0x00 else 0x03

end Sys2Proof.Claims

open Sys2Proof Sys2Proof.Machine Sys2Proof.Claims

/-! ### Encoding (30_encoding.md) -/

/-- Decoding the words of any well-formed command gives it back, whatever words follow (sections 2 and 3 of
30_encoding.md; no bit of an encoding is dropped). -/
def Obligations.DecodeEncodeRoundTrip : Prop :=
  ∀ i : Instr, i.WellFormed → ∀ rest : List Word, decode (encode i ++ rest) = .command i rest

/-- The worked encodings of R74, which the spec derives from R62 to R67, are read as the commands it gives. -/
def Obligations.WorkedWordsDecode : Prop :=
  decode [0x01030000, 0x00000040] = .command (.config 3 0 64) [] ∧
  decode [0x02000004, 0x00000000, 0x64636261] = .command (.hash 0 0 [0x61, 0x62, 0x63, 0x64]) [] ∧
  decode [0x03000005, 0x6c6c6568, 0x0000006f] = .command (.add 0 [0x68, 0x65, 0x6c, 0x6c, 0x6f]) [] ∧
  decode [0x04000005, 0x6c6c6568, 0x0000006f] = .command (.query 0 [0x68, 0x65, 0x6c, 0x6c, 0x6f]) [] ∧
  decode [0x02000000, 0x00000000] = .command (.hash 0 0 []) []

/-- R71: the length of a command by its header, its greatest value, and that the block consumes exactly that many
words, whether it executes the command or refuses it. -/
def Obligations.CommandLengthIsConsumed : Prop :=
  (∀ hdr : Word,
    (hdr.extractLsb' 24 8 = 0x01 → cmdlen hdr = 2) ∧
    (hdr.extractLsb' 24 8 = 0x02 → cmdlen hdr = 2 + (hdr.extractLsb' 0 16).toNat ⌈/⌉ 4) ∧
    (hdr.extractLsb' 24 8 = 0x03 ∨ hdr.extractLsb' 24 8 = 0x04 →
      cmdlen hdr = 1 + (hdr.extractLsb' 0 16).toNat ⌈/⌉ 4) ∧
    (hdr.extractLsb' 24 8 ∉ [0x01, 0x02, 0x03, 0x04] → cmdlen hdr = 1) ∧
    cmdlen hdr ≤ 16386) ∧
  cmdlen 0x0200ffff = 16386 ∧
  ∀ (s : State) (hdr : Word) (ws : List Word), s.Inv → s.rst = false → s.cmd = hdr :: ws →
    cmdlen hdr ≤ s.cmd.length → ∃ t, step s = .next t ∧ t.cmd = s.cmd.drop (cmdlen hdr)

/-- R63, in the formats of R64 to R66: the opcode alone says which command a whole run of words is, and every other
value is reserved. -/
def Obligations.OpcodeSelectsCommand : Prop :=
  ∀ (hdr : Word) (rest : List Word),
    (hdr.extractLsb' 24 8 = 0x01 → ∀ rs : Word,
      decode (hdr :: rs :: rest) = .command (.config (hdr.extractLsb' 16 8) (hdr.extractLsb' 0 16) rs) rest) ∧
    (∀ pw : List Word, pw.length = (hdr.extractLsb' 0 16).toNat ⌈/⌉ 4 →
      let B := unpackPayload (hdr.extractLsb' 0 16).toNat pw
      (hdr.extractLsb' 24 8 = 0x02 → ∀ seed : Word,
        decode (hdr :: seed :: (pw ++ rest)) = .command (.hash (hdr.extractLsb' 16 8) seed B) rest) ∧
      (hdr.extractLsb' 24 8 = 0x03 → decode (hdr :: (pw ++ rest)) = .command (.add (hdr.extractLsb' 16 8) B) rest) ∧
      (hdr.extractLsb' 24 8 = 0x04 →
        decode (hdr :: (pw ++ rest)) = .command (.query (hdr.extractLsb' 16 8) B) rest)) ∧
    (hdr.extractLsb' 24 8 ∉ [0x01, 0x02, 0x03, 0x04] → decode (hdr :: rest) = .reserved (hdr.extractLsb' 24 8) rest)

/-- R67: the words of a payload, their lanes, the zero padding a host should send, unpacking by lane, and that two
commands differing only in padding lanes behave identically. -/
def Obligations.PayloadPackingAndPadding : Prop :=
  (∀ B : List Byte, (packPayload B).length = B.length ⌈/⌉ 4 ∧
    ∀ i, i < 4 * (packPayload B).length →
      ((packPayload B).getD (i / 4) 0).extractLsb' (8 * (i % 4)) 8 = B.getD i 0) ∧
  (∀ (n : Nat) (ws : List Word), n ≤ 4 * ws.length → (unpackPayload n ws).length = n ∧
    ∀ i, i < n → (unpackPayload n ws)[i]? = some ((ws.getD (i / 4) 0).extractLsb' (8 * (i % 4)) 8)) ∧
  (∀ (s : State) (hdr : Word) (operand pw pw' rest : List Word),
    hdr.extractLsb' 24 8 ∈ [0x02, 0x03, 0x04] →
    operand.length = (if hdr.extractLsb' 24 8 = 0x02 then 1 else 0) →
    pw.length = (hdr.extractLsb' 0 16).toNat ⌈/⌉ 4 → pw'.length = pw.length →
    (∀ i, i < (hdr.extractLsb' 0 16).toNat →
      (pw.getD (i / 4) 0).extractLsb' (8 * (i % 4)) 8 = (pw'.getD (i / 4) 0).extractLsb' (8 * (i % 4)) 8) →
    step { s with cmd := hdr :: (operand ++ pw ++ rest) } = step { s with cmd := hdr :: (operand ++ pw' ++ rest) })

/-- Which command a line of the textual notation stands for and exactly when it stands for one (section 6 of
30_encoding.md), form by form: `size` below 2^32, `k` below 256, `seed` modulo 2^32, text as the ASCII codes of its
characters in order, a payload of at most 65535 bytes, every must-be-zero field 0. A line assembles exactly when it
stands for a command, to the words of that command, and they decode to it. The tree the line is given as is the model's
form (log entry 12). -/
def Obligations.AssembledLineDecodes : Prop :=
  (∀ bs p : List Byte, asmBytes (.hex bs) = some p ↔ p = bs) ∧
  (∀ (cs : List Char) (p : List Byte), asmBytes (.text cs) = some p ↔
    (∀ c ∈ cs, c.toNat < 128) ∧ p.map BitVec.toNat = cs.map Char.toNat) ∧
  (∀ (size k : Nat) (i : Instr), asmInstr (.config size k) = some i ↔
    size < 2 ^ 32 ∧ k < 256 ∧ ∃ kf rs, i = .config kf 0 rs ∧ kf.toNat = k ∧ rs.toNat = size) ∧
  (∀ (seed : Int) (b : AsmBytes) (i : Instr), asmInstr (.hash seed b) = some i ↔
    ∃ p sd, asmBytes b = some p ∧ p.length ≤ 65535 ∧ i = .hash 0 sd p ∧ (sd.toNat : Int) = seed % 2 ^ 32) ∧
  (∀ (b : AsmBytes) (i : Instr), asmInstr (.add b) = some i ↔
    ∃ p, asmBytes b = some p ∧ p.length ≤ 65535 ∧ i = .add 0 p) ∧
  (∀ (b : AsmBytes) (i : Instr), asmInstr (.query b) = some i ↔
    ∃ p, asmBytes b = some p ∧ p.length ≤ 65535 ∧ i = .query 0 p) ∧
  (∀ (l : AsmLine) (ws : List Word), assemble l = some ws ↔ ∃ i, asmInstr l = some i ∧ ws = encode i) ∧
  (∀ (l : AsmLine) (ws rest : List Word), assemble l = some ws →
    ∃ i, asmInstr l = some i ∧ i.WellFormed ∧ fieldOk i = true ∧ decode (ws ++ rest) = .command i rest)

/-! ### The step, the stream, reset (20_memory.md, 70_reset_and_hazards.md) -/

/-- A step runs the command decoded at the front of the command port: it is `exec` of it with the command's words
consumed, and a decoded command is always well-formed. -/
def Obligations.StepRunsDecodedCommand : Prop :=
  ∀ (s : State) (i : Instr) (rest : List Word), s.rst = false → decode s.cmd = .command i rest →
    i.WellFormed ∧ step s = exec i { s with cmd := rest }

/-- Until the last word of a command has come nothing changes: the model's choice of log entry 5 for what R182 calls
"either idle awaiting a header or executing one command". -/
def Obligations.StepWaitsForWholeCommand : Prop :=
  ∀ s : State, s.rst = false →
    (s.cmd = [] ∨ ∃ hdr ws, s.cmd = hdr :: ws ∧ s.cmd.length < cmdlen hdr) → step s = .next s

/-- R69 and R173: a reserved opcode consumes one word, changes no state and is answered with `E_OPCODE`, the opcode
echoed. -/
def Obligations.ReservedOpcodeIsRefused : Prop :=
  ∀ (s : State) (hdr : Word) (ws : List Word), s.rst = false → s.cmd = hdr :: ws →
    hdr.extractLsb' 24 8 ∉ [0x01, 0x02, 0x03, 0x04] →
    step s = .next { s with
      cmd := ws, rsp := s.rsp ++ [answer (hdr.extractLsb' 24 8) s.configured false 0x01, 0] }

/-- R200 and R202: while `rst` is asserted no word is accepted and none produced, whatever was at the ports is gone,
the release leaves the reset state awaiting a header, and no command undoes a construction as reset does. -/
def Obligations.ResetHoldsAndAbandons : Prop :=
  (∀ s : State, s.rst = true → ∃ t, step s = .next t ∧ t.rst = true ∧ inResetState t) ∧
  (∀ (s : State) (ws : List Word), s.rst = true → sendWords ws s = s) ∧
  (∀ (s : State) (ws : List Word), let t := releaseReset (assertReset (sendWords ws s))
    t.rst = false ∧ inResetState t ∧ decode t.cmd = .waiting) ∧
  (∀ s t : State, s.rst = true → step s = .next t →
    (releaseReset t).rst = false ∧ inResetState (releaseReset t) ∧ decode (releaseReset t).cmd = .waiting) ∧
  (∀ (i : Instr) (s t : State), exec i s = .next t → s.configured = true → t.configured = true)

/-- The reset state (section 1 of 70_reset_and_hazards.md, section 5 of 10_state.md). That no bucket is readable there
is the model's form of "unspecified" (log entry 4). -/
def Obligations.ResetStateValues : Prop :=
  State.reset.configured = false ∧ State.reset.k = 0 ∧ State.reset.size = 0 ∧ State.reset.cmd = [] ∧
  State.reset.rsp = [] ∧ ∀ a, memRead State.reset a = .error (.noSuchBucket a)

/-- The state after reset meets the invariant. -/
def Obligations.ResetMeetsInvariant : Prop := State.reset.Inv

/-- Every step keeps the invariant: the array in canonical form and inside `0..SIZE-1`, `SIZE` odd and within
`MAX_BUCKETS` (the default the model takes, log entry 1) once a filter exists, `K` and `SIZE` 0 before. -/
def Obligations.StepKeepsInvariant : Prop :=
  ∀ s t : State, s.Inv → step s = .next t → t.Inv

/-- No step stops (the spec's derivation that "no access is ever out of range", R41; every command ends, R209). That a
response always finds room is the model's choice (log entry 2). -/
def Obligations.StepNeverStops : Prop :=
  ∀ s : State, s.Inv → ∃ t, step s = .next t

/-- Under every interleaving of the host's moves with the block's steps the block never stops and keeps its
invariant. This rests on choices of the model: the ports are unbounded lists, so a host that takes no responses stalls
nothing, where R208 says it stalls the real block (log entry 2); `rst` is held in State, moved by the host and sampled
by a step (log entry 3); and its assertion falls between two steps (log entry 15). -/
def Obligations.EveryScheduleKeepsInvariant : Prop :=
  ∀ (es : List Event) (s : State), s.Inv → ∃ t, runEvents es s = .next t ∧ t.Inv

/-- The word stream refines the list of commands: stepping over the words of well-formed commands is running them one
after the other, each atomic (section 4 of 20_memory.md, section 5 of 70_reset_and_hazards.md). -/
def Obligations.StreamRunsCommandsInOrder : Prop :=
  ∀ (is : List Instr) (s : State) (rest : List Word), (∀ i ∈ is, i.WellFormed) → s.rst = false →
    Host.Core.run Sys2Proof.core is.length { s with cmd := encodeAll is ++ rest } =
      runCommands is { s with cmd := rest }

/-- The time between words is invisible (section 1 of 30_encoding.md: "nothing depends on it"): words sent in two parts
with steps between, or at once, leave the same state when the block has come to wait. That the numbers of steps add up
rests on the model's choice that a step of a waiting block changes nothing (log entry 5). -/
def Obligations.PortTimingIsInvisible : Prop :=
  ∀ (s t u : State) (ws ws' : List Word) (m n : Nat), s.rst = false →
    Host.Core.run Sys2Proof.core m (sendWords ws s) = .next t →
    Host.Core.run Sys2Proof.core n (sendWords ws' t) = .next u → decode u.cmd = .waiting →
    Host.Core.run Sys2Proof.core (m + n) (sendWords (ws ++ ws') s) = .next u

/-- Responses leave in command order, one pair of words for each command (section 4 of 20_memory.md). -/
def Obligations.OneResponsePairPerCommand : Prop :=
  ∀ (is : List Instr) (s t : State), runCommands is s = .next t →
    ∃ rs : List (Word × Word), t.rsp = s.rsp ++ rs.flatMap (fun r => [r.1, r.2]) ∧
      rs.map (fun r => r.1.extractLsb' 24 8) = is.map Instr.opc

/-! ### The hash (00_scope.md, 40_hash_mixer.md) -/

/-- R10: the primitives, through the readings of R9. -/
def Obligations.ArithmeticPrimitives : Prop :=
  (∀ a b : Word, (mul32 a b).toNat = a.toNat * b.toNat % 2 ^ 32 ∧
    mul32 a b = BitVec.ofInt 32 (a.toInt * b.toInt)) ∧
  (∀ (a b : Word) (i : Nat), (xor32 a b).getLsbD i = (a.getLsbD i ^^ b.getLsbD i)) ∧
  (∀ (a b : Byte) (i : Nat), (or8 a b).getLsbD i = (a.getLsbD i || b.getLsbD i)) ∧
  (∀ (a : Word) (s : Nat), s ≤ 31 → (asr32 a s).toInt = a.toInt.fdiv (2 ^ s) ∧
    ∀ i, i < 32 → (asr32 a s).getLsbD i = if i ≤ 31 - s then a.getLsbD (i + s) else a.getLsbD 31) ∧
  (∀ (a : Word) (s : Nat), (shl32 a s).toNat = a.toNat * 2 ^ s % 2 ^ 32) ∧
  (∀ (z : Int) (n : Nat), 1 ≤ n → (emod z n : Int) = z - n * z.fdiv n ∧ emod z n < n ∧
    ∀ r : Nat, r < n → (n : Int) ∣ z - r → r = emod z n) ∧
  (∀ a n : Nat, 1 ≤ n → n * udiv a n ≤ a ∧ a < n * (udiv a n + 1))

/-- R93 and R96: the chunk mix with its arithmetic shift, how that shift compares with a logical one, and the
finalisation. -/
def Obligations.MixAndFinalisation : Prop :=
  (∀ h k0 : Word,
    mixK k0 = 0x5bd1e995#32 * ((0x5bd1e995#32 * k0) ^^^ (0x5bd1e995#32 * k0).sshiftRight 24) ∧
    mixStep h k0 = (0x5bd1e995#32 * h) ^^^ mixK k0) ∧
  (∀ k1 : Word, (asr32 k1 24).extractLsb' 0 8 = k1.extractLsb' 24 8 ∧
    (∀ i, 8 ≤ i → i < 32 → (asr32 k1 24).getLsbD i = k1.getLsbD 31) ∧
    (k1.getLsbD 31 = false → asr32 k1 24 = k1 >>> 24) ∧
    (k1.getLsbD 31 = true → ∀ i, 8 ≤ i → i < 32 → (asr32 k1 24).getLsbD i ≠ (k1 >>> 24).getLsbD i)) ∧
  ∀ h : Word, hashFin h = finAt h

/-- R97, with the loops of R94 and R95 by offset: chunks at 0, 4, 8, ... in increasing order, then the tail, then the
finalisation. -/
def Obligations.HashFollowsOffsets : Prop :=
  (∀ (B : List Byte) (seed : Word), hash32 B seed = hashAt B seed) ∧
  ∀ b0 b1 b2 b3 : Byte, wordAt [b0, b1, b2, b3] 0 = b3 ++ b2 ++ b1 ++ b0

/-- The spec's derivation of section 5 of 40_hash_mixer.md: "Bit 31 of every hash value is 0", the signed and unsigned
readings agree, and bits 31 to 17 of a finalised value are those of the `f2` of R96, each xored with its bit 31; the
hash is the finalised value of what its chunks and tail leave. -/
def Obligations.HashBit31IsClear : Prop :=
  (∀ (B : List Byte) (seed : Word), (hash32 B seed).getLsbD 31 = false ∧
    (hash32 B seed).toInt = (hash32 B seed).toNat ∧ (hash32 B seed).toNat < 2 ^ 31) ∧
  (∀ h : Word, let f2 := mul32 (xor32 h (asr32 h 13)) 0x5bd1e995
    ∀ i, 17 ≤ i → i < 32 → (hashFin h).getLsbD i = (f2.getLsbD i ^^ f2.getLsbD 31)) ∧
  ∀ (B : List Byte) (seed : Word), let t := 4 * (B.length / 4)
    let h := tailAt B t (B.length - t) (chunksAt B (seed ^^^ BitVec.ofNat 32 B.length))
    let f2 := mul32 (xor32 h (asr32 h 13)) 0x5bd1e995
    ∀ i, 17 ≤ i → i < 32 → (hash32 B seed).getLsbD i = (f2.getLsbD i ^^ f2.getLsbD 31)

/-- The corner values the spec derives in section 5 of 40_hash_mixer.md, the pinned `hash([], 0, 0)` among them. -/
def Obligations.HashCornerValues : Prop :=
  hash32 [] 0 = 0 ∧ (∀ seed : Word, hash32 [] seed = finAt seed) ∧ hash32 [] 0xffffffff = 0 ∧ hash32 [0x01] 0 = 0 ∧
  hash32 [] 1 = 0x5bd15e36

/-- The spec's derivation of section 5 of 40_hash_mixer.md: "The chunk mix differs from a logical-shift mix exactly
when `mul32(k0, M)[31] = 1`". -/
def Obligations.MixTellsShiftsApart : Prop :=
  ∀ k0 : Word, mixK k0 ≠ 0x5bd1e995#32 * ((0x5bd1e995#32 * k0) ^^^ (0x5bd1e995#32 * k0) >>> 24) ↔
    (0x5bd1e995#32 * k0).getLsbD 31 = true

/-- The spec's derivation of section 4 of 40_hash_mixer.md: "`M` is odd, so `mul32(_, M)` is a bijection on `u32`". -/
def Obligations.MultiplierIsABijection : Prop := Function.Bijective fun a : Word => mul32 a mulM

/-- The laws of the 4-byte helpers, which the spec derives in section 3 of 40_hash_mixer.md. -/
def Obligations.ByteHelpersInvert : Prop :=
  (∀ w b0 b1 b2 b3, enc32 w = [b0, b1, b2, b3] → dec32 b0 b1 b2 b3 = w) ∧
  (∀ b0 b1 b2 b3 : Byte, enc32 (dec32 b0 b1 b2 b3) = [b0, b1, b2, b3]) ∧
  ∀ (B : List Byte) (i : Nat), dec32 (byteAt B i) (byteAt B (i + 1)) (byteAt B (i + 2)) (byteAt B (i + 3)) = wordAt B i

/-! ### The indexer (41_bit_indexer.md) -/

/-- The chain of seeds (section 1 of 41_bit_indexer.md), with the spec's derived remarks: a shorter chain is a front
of a longer one, and a hash that equals its own seed repeats. -/
def Obligations.ChainReseeds : Prop :=
  ∀ (B : List Byte) (K : Nat), (chain B K).length = K ∧
    (1 ≤ K → (chain B K)[0]? = some (hash32 B 0)) ∧
    (∀ r h, r + 1 < K → (chain B K)[r]? = some h → (chain B K)[r + 1]? = some (hash32 B h)) ∧
    (∀ j, j ≤ K → (chain B K).take j = chain B j) ∧
    (∀ r q h, (chain B K)[r]? = some h → hash32 B h = h → r ≤ q → q < K → (chain B K)[q]? = some h)

/-- R121: the bucket index is the floored remainder of the signed hash, in range, and the only value in range that is
congruent to it. -/
def Obligations.BucketIndexIsFlooredRemainder : Prop :=
  ∀ (h : Word) (n : Nat), 1 ≤ n →
    (bucketIndex h n : Int) = h.toInt - n * h.toInt.fdiv n ∧ bucketIndex h n < n ∧
    ∀ r : Nat, r < n → (n : Int) ∣ h.toInt - r → r = bucketIndex h n

/-- The spec's derivation of section 2 of 41_bit_indexer.md: on a hash value the index is "the ordinary remainder of a
non-negative number". -/
def Obligations.HashIndexIsUnsignedRemainder : Prop :=
  ∀ (B : List Byte) (seed : Word) (n : Nat), 1 ≤ n →
    bucketIndex (hash32 B seed) n = (hash32 B seed).toNat % n ∧
    bucketIndex (hash32 B seed) n = ((hash32 B seed).extractLsb' 0 31).toNat % n

/-- The bit index (section 2 of 41_bit_indexer.md; the spec derives the second form): the floored remainder by 8, which
is the low three bits. -/
def Obligations.BitIndexIsLowThreeBits : Prop :=
  ∀ h : Word, (bitIndex h : Int) = h.toInt - 8 * h.toInt.fdiv 8 ∧ bitIndex h = (h.extractLsb' 0 3).toNat ∧
    bitIndex h ≤ 7

/-- The spec's derivation of section 2 of 41_bit_indexer.md: "the pair determines `h_r` modulo `8 * SIZE`", because
`SIZE` is odd. -/
def Obligations.PairDeterminesHashResidue : Prop :=
  ∀ (n : Nat) (h h' : Word), n % 2 = 1 →
    (indexPair n h = indexPair n h' ↔ h.toInt % (8 * (n : Int)) = h'.toInt % (8 * (n : Int)))

/-! ### The bit array (20_memory.md, 42_filter_ops.md) -/

/-- Access to a bucket (section 1 of 20_memory.md): a write below `SIZE` changes that bucket and no other. At or beyond
`SIZE` there is no bucket; that an access there is the fault `noSuchBucket` is the model's choice, since the spec says
there is no out-of-range fault to define (log entry 4). -/
def Obligations.BucketAccess : Prop :=
  ∀ (s : State) (a : Nat) (v : Byte), s.bits.wf →
    (a < s.size → ∃ t, memWrite s a v = .ok t ∧ memRead t a = .ok v ∧ (∀ x, x ≠ a → memRead t x = memRead s x) ∧
      t = { s with bits := t.bits } ∧ t.bits.wf) ∧
    (s.size ≤ a → memRead s a = .error (.noSuchBucket a) ∧ memWrite s a v = .error (.noSuchBucket a))

/-- R140 and R152: the masks, `set_bit` and `test_bit` of a bucket read as an unsigned byte. -/
def Obligations.SetBitThenTestBit : Prop :=
  (mask 0 = 0x01 ∧ mask 1 = 0x02 ∧ mask 2 = 0x04 ∧ mask 3 = 0x08 ∧ mask 4 = 0x10 ∧ mask 5 = 0x20 ∧ mask 6 = 0x40 ∧
    mask 7 = 0x80) ∧
  ∀ (s : State) (a b : Nat), s.bits.wf → a < s.size → b ≤ 7 →
    testBit s a b = .ok (decide ((s.bits.read a).toNat / 2 ^ b % 2 = 1)) ∧
    testBit s a b = .ok ((s.bits.read a).getLsbD b) ∧
    ∃ t, setBit s a b = .ok t ∧ t = { s with bits := t.bits } ∧
      memRead t a = .ok (s.bits.read a ||| 1#8 <<< b) ∧ testBit t a b = .ok true ∧
      (∀ x y, x < s.size → y ≤ 7 → (x, y) ≠ (a, b) → testBit t x y = testBit s x y)

/-- The spec's derivation of section 3 of 20_memory.md: setting a bit that is set writes back what was read, so a model
"may equally perform it or skip it". -/
def Obligations.SettingASetBitChangesNothing : Prop :=
  ∀ (s : State) (a b : Nat), s.bits.wf → b ≤ 7 → testBit s a b = .ok true → setBit s a b = .ok s

/-! ### CONFIG (42_filter_ops.md, 60_exceptions.md) -/

/-- R141: the size rule in both its forms, and its greatest value. -/
def Obligations.SizeNormalisation : Prop :=
  (∀ rs : Word,
    let rs' := if rs.toNat < 8 then 8 else rs.toNat
    normSize rs = (if rs' / 8 % 2 = 0 then rs' / 8 + 1 else rs' / 8) ∧ normSize rs = (rs' / 8) ||| 1 ∧
    1 ≤ rs' / 8 ∧ normSize rs ≤ 536870911 ∧ (rs.toNat ≤ 15 → normSize rs = 1)) ∧
  normSize 0xffffffff = 536870911 ∧ normSize 0 = normSize 8 ∧ normSize 64 = 9

/-- R142 and R153: `CONFIG` with its two refusals; executed, it completes with the new `K` and `SIZE`, every bucket
zero whatever the array held, and `SIZE` in the response; and no other command returns a set bit to 0. -/
def Obligations.ConfigConstructsFilter : Prop :=
  ∀ (k : BitVec 8) (len : BitVec 16) (rs : Word) (s : State),
    (len ≠ 0 → exec (.config k len rs) s = .next { s with rsp := s.rsp ++ [answer 0x01 s.configured false 0x02, 0] }) ∧
    (len = 0 → Config.maxBuckets < normSize rs →
      exec (.config k len rs) s = .next { s with rsp := s.rsp ++ [answer 0x01 s.configured false 0x04, 0] }) ∧
    (len = 0 → normSize rs ≤ Config.maxBuckets →
      ∃ t, exec (.config k len rs) s = .next t ∧ t.configured = true ∧ t.k = k ∧ t.size = normSize rs ∧ t.bits.wf ∧
        (∀ a, a < normSize rs → memRead t a = .ok 0) ∧ t.cmd = s.cmd ∧ t.rst = s.rst ∧
        t.rsp = s.rsp ++ [0x01000200, BitVec.ofNat 32 (normSize rs)]) ∧
    (s.bits.wf → ∀ (i : Instr) (t : State) (a b : Nat), exec i s = .next t → s.bitSet a b = true →
      t.bitSet a b = false → constructs i = true)

/-- R176, for every legal value of the parameter `MAX_BUCKETS`: the size is refused, never clamped, and at the default
8191 the greatest accepted `REQ_SIZE` is 65535. -/
def Obligations.CapacityIsRefusedNotClamped : Prop :=
  (∀ (maxBuckets : Nat) (k : BitVec 8) (rs : Word) (s : State), Config.LegalMaxBuckets maxBuckets →
    (maxBuckets < normSize rs →
      constructFilter maxBuckets k 0 rs s = { s with rsp := s.rsp ++ [answer 0x01 s.configured false 0x04, 0] }) ∧
    (normSize rs ≤ maxBuckets → (constructFilter maxBuckets k 0 rs s).configured = true ∧
      (constructFilter maxBuckets k 0 rs s).size = normSize rs)) ∧
  ∀ rs : Word, normSize rs ≤ 8191 ↔ rs.toNat ≤ 65535

/-- The spec's derivation of section 2 of 42_filter_ops.md: "after every successful `CONFIG`, `SIZE` is odd and
`1 <= SIZE <= MAX_BUCKETS`, and it stays so"; `MAX_BUCKETS` is the default the model takes (log entry 1). -/
def Obligations.SizeIsOddAfterConfig : Prop :=
  ∀ (i : Instr) (is : List Instr) (s t u : State), constructs i = true → exec i s = .next t →
    runCommands is t = .next u → u.size % 2 = 1 ∧ 1 ≤ u.size ∧ u.size ≤ Config.maxBuckets

/-- The frame of `CONFIG` (section 4 of 10_state.md): the ports but for the response, and the reset input, as before;
refused, every register and bucket as before; executed, no bucket at or beyond the new `SIZE`, which the model shows as
the fault `noSuchBucket`, its own choice (log entry 4). -/
def Obligations.ConfigFrame : Prop :=
  ∀ (k : BitVec 8) (len : BitVec 16) (rs : Word) (s t : State), exec (.config k len rs) s = .next t →
    t.cmd = s.cmd ∧ t.rst = s.rst ∧ s.rsp <+: t.rsp ∧
    (constructs (.config k len rs) = false →
      t.configured = s.configured ∧ t.k = s.k ∧ t.size = s.size ∧ t.bits = s.bits ∧
        ∀ a, memRead t a = memRead s a) ∧
    (constructs (.config k len rs) = true → ∀ a, t.size ≤ a → memRead t a = .error (.noSuchBucket a))

/-! ### HASH (40_hash_mixer.md) -/

/-- R98: `HASH` completes in every state, configured or not, changes no state, answers the hash, and refuses a non-zero
`K` field. -/
def Obligations.HashAnswersHash : Prop :=
  ∀ (k : BitVec 8) (seed : Word) (B : List Byte) (s : State),
    (k ≠ 0 → exec (.hash k seed B) s = .next { s with rsp := s.rsp ++ [answer 0x02 s.configured false 0x02, 0] }) ∧
    (k = 0 → exec (.hash k seed B) s =
      .next { s with rsp := s.rsp ++ [answer 0x02 s.configured false 0x00, hash32 B seed] }) ∧
    hash32 [] seed = finAt seed

/-! ### ADD (42_filter_ops.md) -/

/-- R144: `ADD` with its two refusals; on a filter it completes, sets exactly the bits of the item's index pairs, and
is acknowledged; the empty payload sets bit 0 of bucket 0 in every round. -/
def Obligations.AddSetsIndexBits : Prop :=
  ∀ (k : BitVec 8) (B : List Byte) (s : State),
    (k ≠ 0 → exec (.add k B) s = .next { s with rsp := s.rsp ++ [answer 0x03 s.configured false 0x02, 0] }) ∧
    (k = 0 → s.configured = false →
      exec (.add k B) s = .next { s with rsp := s.rsp ++ [answer 0x03 s.configured false 0x03, 0] }) ∧
    (k = 0 → s.configured = true → 1 ≤ s.size → s.bits.wf →
      ∃ m : Memory, exec (.add k B) s = .next { s with bits := m, rsp := s.rsp ++ [0x03000200, 0] } ∧ m.wf ∧
        ∀ x y, x < s.size → y ≤ 7 →
          (m.read x).getLsbD y = ((s.bits.read x).getLsbD y || decide ((x, y) ∈ indices B s.k.toNat s.size))) ∧
    indices [] s.k.toNat s.size = List.replicate s.k.toNat (0, 0)

/-- `ADD` is its loop (section 3 of 42_filter_ops.md): each round hashes with the last hash as seed and sets one bit.
In every state, also those no run reaches: the fault branch is reached in such states only and is the model's choice
(log entries 4 and 13). -/
def Obligations.AddRunsItsRounds : Prop :=
  ∀ (B : List Byte) (s : State), s.configured = true →
    exec (.add 0 B) s =
      match addLoop B 0 s s.k.toNat with
      | .error f => .fault f
      | .ok t => .next { t with rsp := t.rsp ++ [0x03000200, 0] }

/-- The frame of `ADD` (section 4 of 10_state.md): every register, the command port and the reset input as before, and
every bucket but those of the item's bucket indices, computed as `ADD` computes them. -/
def Obligations.AddFrame : Prop :=
  ∀ (k : BitVec 8) (B : List Byte) (s t : State), s.bits.wf → exec (.add k B) s = .next t →
    t.configured = s.configured ∧ t.k = s.k ∧ t.size = s.size ∧ t.cmd = s.cmd ∧ t.rst = s.rst ∧ s.rsp <+: t.rsp ∧
    ∀ a, a ∉ (chain B s.k.toNat).map (fun h => bucketIndex h s.size) → memRead t a = memRead s a

/-! ### QUERY (42_filter_ops.md) -/

/-- R145: `QUERY` with its two refusals; on a filter it completes, changes no state, and answers `MATCH = 1` exactly
when every bit of the item's index pairs is set. -/
def Obligations.QueryTestsIndexBits : Prop :=
  ∀ (k : BitVec 8) (B : List Byte) (s : State),
    (k ≠ 0 → exec (.query k B) s = .next { s with rsp := s.rsp ++ [answer 0x04 s.configured false 0x02, 0] }) ∧
    (k = 0 → s.configured = false →
      exec (.query k B) s = .next { s with rsp := s.rsp ++ [answer 0x04 s.configured false 0x03, 0] }) ∧
    (k = 0 → s.configured = true → 1 ≤ s.size →
      exec (.query k B) s = .next { s with rsp := s.rsp ++
        [answer 0x04 true
          (decide (∀ p ∈ indices B s.k.toNat s.size, (s.bits.read p.1).getLsbD p.2 = true)) 0x00, 0] })

/-- `QUERY` is its loop with the early exit (section 4 of 42_filter_ops.md), and where no access is out of range the
early exit changes no value: the answer is that of all the rounds. The fault branch of the loop is reached only in
states that no run reaches and is the model's choice (log entries 4 and 13). -/
def Obligations.QueryEarlyExitChangesNoValue : Prop :=
  ∀ (B : List Byte) (s : State), s.configured = true →
    (exec (.query 0 B) s =
      match queryLoop B 0 s s.k.toNat with
      | .error f => .fault f
      | .ok m => .next { s with rsp := s.rsp ++ [answer 0x04 true m 0x00, 0] }) ∧
    (1 ≤ s.size → queryLoop B 0 s s.k.toNat =
      .ok ((chain B s.k.toNat).all fun h => s.bitSet (bucketIndex h s.size) (bitIndex h)))

/-- The frame of `HASH` and `QUERY` (section 4 of 10_state.md): nothing but the response port changes, and every bucket
reads as before. -/
def Obligations.HashQueryFrame : Prop :=
  ∀ (i : Instr) (s t : State), (∃ k seed B, i = .hash k seed B) ∨ (∃ k B, i = .query k B) → exec i s = .next t →
    t = { s with rsp := t.rsp } ∧ s.rsp <+: t.rsp ∧ ∀ a, memRead t a = memRead s a

/-- R151: `K = 0` is accepted; `ADD` then sets no bit and `QUERY` answers `MATCH = 1` for every item. -/
def Obligations.ZeroRounds : Prop :=
  (∀ (rs : Word) (s : State), normSize rs ≤ Config.maxBuckets →
    ∃ t, exec (.config 0 0 rs) s = .next t ∧ t.configured = true ∧ t.k = 0) ∧
  ∀ (B : List Byte) (s : State), s.configured = true → s.k = 0 →
    exec (.add 0 B) s = .next { s with rsp := s.rsp ++ [0x03000200, 0] } ∧
    exec (.query 0 B) s = .next { s with rsp := s.rsp ++ [0x04000300, 0] }

/-! ### Responses and refusals (30_encoding.md, 60_exceptions.md) -/

/-- R68: the response to every command, field by field. -/
def Obligations.ResponseFormat : Prop :=
  (∀ (i : Instr) (s t : State), exec i s = .next t →
    ∃ r0 r1 : Word, t.rsp = s.rsp ++ [r0, r1] ∧ r0.extractLsb' 24 8 = i.opc ∧ r0.extractLsb' 10 14 = 0 ∧
      r0.getLsbD 9 = t.configured ∧ r0.extractLsb' 0 8 = errorOf i s ∧
      (r0.getLsbD 8 = true ↔ ∃ k B, i = .query k B ∧ errorOf i s = 0 ∧
        ∀ p ∈ indices B s.k.toNat s.size, s.bitSet p.1 p.2 = true) ∧
      (errorOf i s ≠ 0 → r1 = 0) ∧
      (errorOf i s = 0 → (∀ k len rs, i = .config k len rs → r1 = BitVec.ofNat 32 t.size) ∧
        (∀ k seed B, i = .hash k seed B → r1 = hash32 B seed) ∧
        (∀ k B, i = .add k B ∨ i = .query k B → r1 = 0))) ∧
  ∀ (s : State) (hdr : Word) (ws : List Word), s.rst = false → s.cmd = hdr :: ws →
    hdr.extractLsb' 24 8 ∉ [0x01, 0x02, 0x03, 0x04] →
    ∃ t, step s = .next t ∧ t.rsp = s.rsp ++ [answer (hdr.extractLsb' 24 8) t.configured false 0x01, 0]

/-- R171: a refused command has consumed its words and given its response, and changed nothing else. -/
def Obligations.RefusedCommandChangesNothing : Prop :=
  ∀ (s t : State) (r0 r1 : Word), s.rst = false → step s = .next t → t.rsp = s.rsp ++ [r0, r1] →
    r0.extractLsb' 0 8 ≠ 0 →
    ∃ hdr ws, s.cmd = hdr :: ws ∧ t = { s with
      cmd := s.cmd.drop (cmdlen hdr),
      rsp := s.rsp ++ [answer (hdr.extractLsb' 24 8) s.configured false (r0.extractLsb' 0 8), 0] }

/-- R172 and R177: the code of every response, in the order of priority; a reserved opcode comes before every other
check, and no other code is produced. -/
def Obligations.ErrorCodesAndPriority : Prop :=
  (∀ (i : Instr) (s t : State) (r0 r1 : Word), exec i s = .next t → t.rsp = s.rsp ++ [r0, r1] →
    r0.extractLsb' 24 8 = i.opc ∧
    (fieldOk i = false → r0.extractLsb' 0 8 = 0x02) ∧
    (fieldOk i = true → i.opc = 0x03 ∨ i.opc = 0x04 → s.configured = false → r0.extractLsb' 0 8 = 0x03) ∧
    (fieldOk i = true → (∃ k len rs, i = .config k len rs ∧ Config.maxBuckets < normSize rs) →
      r0.extractLsb' 0 8 = 0x04) ∧
    (fieldOk i = true → (i.opc = 0x03 ∨ i.opc = 0x04 → s.configured = true) →
      (∀ k len rs, i = .config k len rs → normSize rs ≤ Config.maxBuckets) → r0.extractLsb' 0 8 = 0x00)) ∧
  (∀ (s t : State) (hdr r0 r1 : Word) (ws : List Word), s.rst = false → s.cmd = hdr :: ws →
    hdr.extractLsb' 24 8 ∉ [0x01, 0x02, 0x03, 0x04] → step s = .next t → t.rsp = s.rsp ++ [r0, r1] →
    r0.extractLsb' 24 8 = hdr.extractLsb' 24 8 ∧ r0.extractLsb' 0 8 = 0x01)

/-! ### Laws (10_state.md, 42_filter_ops.md) -/

/-- The spec's derivation of section 5 of 42_filter_ops.md, no false negatives: after an `ADD` every later `QUERY` of
the same payload answers `MATCH = 1`, whatever commands lie between, so long as none of them constructs a new filter. -/
def Obligations.NoFalseNegatives : Prop :=
  ∀ (B : List Byte) (is : List Instr) (s : State), s.Inv → s.configured = true →
    (∀ i ∈ is, constructs i = false) →
    ∃ t u, exec (.add 0 B) s = .next t ∧ runCommands is t = .next u ∧
      exec (.query 0 B) u = .next { u with rsp := u.rsp ++ [0x04000300, 0] }

/-- The spec's derivation of section 5 of 42_filter_ops.md, monotonicity: "once `test_bit(a, b) = 1` it stays 1" over
every step that is not a reset and constructs no new filter. -/
def Obligations.SetBitsStaySet : Prop :=
  ∀ s t : State, s.bits.wf → s.rst = false → step s = .next t →
    (∀ i rest, decode s.cmd = .command i rest → constructs i = false) →
    ∀ a b, s.bitSet a b = true → t.bitSet a b = true

/-- The spec's derivation of section 5 of 42_filter_ops.md, idempotence: a second `ADD` of the same payload changes
nothing but the response port. -/
def Obligations.AddIsIdempotent : Prop :=
  ∀ (k : BitVec 8) (B : List Byte) (s t u : State), s.bits.wf → exec (.add k B) s = .next t →
    exec (.add k B) t = .next u → u = { t with rsp := u.rsp }

/-- The spec's derivation of section 5 of 42_filter_ops.md, commutation: two `ADD`s in either order leave the same
state. -/
def Obligations.AddsCommute : Prop :=
  ∀ (B C : List Byte) (s : State), s.Inv → s.configured = true →
    ∃ t, runCommands [.add 0 B, .add 0 C] s = .next t ∧ runCommands [.add 0 C, .add 0 B] s = .next t

/-- The spec's derivation of section 5 of 42_filter_ops.md, union: after any `ADD`s the bits set are those set before
and those of the items' index pairs, so the array depends on the set of items alone. -/
def Obligations.AddsLeaveTheUnion : Prop :=
  ∀ (Bs : List (List Byte)) (s : State), s.Inv → s.configured = true →
    ∃ t, runCommands (Bs.map (Instr.add 0)) s = .next t ∧ t.size = s.size ∧
      (∀ x y, x < s.size → y ≤ 7 →
        t.bitSet x y = (s.bitSet x y || Bs.any fun B => decide ((x, y) ∈ indices B s.k.toNat s.size))) ∧
      ∀ (Cs : List (List Byte)) (u : State), (∀ B, B ∈ Bs ↔ B ∈ Cs) →
        runCommands (Cs.map (Instr.add 0)) s = .next u → u.bits = t.bits

/-- R28: no step out of reset but one that constructs a filter writes `K` or `SIZE`, so they keep their values over any
commands between one successful `CONFIG` and the next. -/
def Obligations.KAndSizeFixedBetweenConfigs : Prop :=
  (∀ s t : State, s.rst = false → step s = .next t →
    (∀ i rest, decode s.cmd = .command i rest → constructs i = false) → t.k = s.k ∧ t.size = s.size) ∧
  ∀ (is : List Instr) (s t : State), (∀ i ∈ is, constructs i = false) → runCommands is s = .next t →
    t.k = s.k ∧ t.size = s.size

/-- The life of `CONFIGURED` (section 2 of 10_state.md): after a step out of reset it is 1 exactly when it was 1 or the
step constructed a filter. -/
def Obligations.ConfiguredFlagLife : Prop :=
  ∀ s t : State, s.rst = false → step s = .next t →
    (t.configured = true ↔ s.configured = true ∨ ∃ i rest, decode s.cmd = .command i rest ∧ constructs i = true)

/-- What reset leaves unspecified is never observed (section 5 of 10_state.md): two unconfigured blocks with the same
ports answer every stream alike, whatever `K`, `SIZE` and the array hold, and are equal once a filter is constructed. -/
def Obligations.UnconfiguredStateIsUnobservable : Prop :=
  ∀ (n : Nat) (s s' t : State), s.configured = false → s'.configured = false → s.cmd = s'.cmd → s.rsp = s'.rsp →
    s.rst = false → s'.rst = false → Host.Core.run Sys2Proof.core n s = .next t →
    ∃ t', Host.Core.run Sys2Proof.core n s' = .next t' ∧ t.rsp = t'.rsp ∧ t.cmd = t'.cmd ∧
      t.configured = t'.configured ∧ (t.configured = true → t = t')

/-! ### The result of a run (70_reset_and_hazards.md) -/

/-- Section 5 of 70_reset_and_hazards.md: from every state meeting the invariant a run of commands, refused headers and
resets has a result; it has one response for each command and none for a reset, in order and each with its command's
opcode; and a reset cuts the run in two, the responses before it standing before those of the rest run from the reset
state, which alone decides the final state. That the responses before a reset are part of the result, and that a
response always finds room, are the model's (log entries 16 and 2). -/
def Obligations.RunResultIsResponsesAndFinalState : Prop :=
  (∀ (xs : List RunItem) (s : State), s.Inv → ∃ r, runItems xs s = .next r ∧
    r.responses.map (fun p => p.1.extractLsb' 24 8) = xs.flatMap itemOpc ∧
    (∀ i, xs = [.command i] → ∃ t, exec i s = .next t ∧ r.final = finalOf t ∧
      t.rsp = s.rsp ++ responseWords r.responses)) ∧
  ∀ (xs ys : List RunItem) (s : State) (r : RunResult), runItems (xs ++ .reset :: ys) s = .next r →
    ∃ before after, runItems xs s = .next before ∧ runItems ys State.reset = .next after ∧
      r.responses = before.responses ++ after.responses ∧ r.final = after.final

/-- The result of a run is what a host sees at the ports (sections 4 and 5 of 70_reset_and_hazards.md): a host that
sends each item's words, lets the block step and takes the response, and resets where the run does, takes exactly the
words of the run's responses, and the block is left idle in the run's final state. The run with its result, and how
`rst` is held and falls between steps, are the model's form (log entries 16, 3 and 15). -/
def Obligations.PortsShowTheRunsResult : Prop :=
  ∀ (xs : List RunItem) (s : State), (∀ x ∈ xs, x.wellFormed) → s.Inv → s.rst = false → s.cmd = [] → s.rsp = [] →
    ∃ r t, runItems xs s = .next r ∧ runTaken (performItems xs) s = .next (responseWords r.responses, t) ∧
      finalOf t = r.final ∧ t.cmd = [] ∧ t.rsp = [] ∧ t.rst = false
end

