-- ==== Sys2Proof/Laws/State.lean ====
section
/-!
SUPPORT. One lemma per field per update of `State`, each true by `rfl`, so that no later proof unfolds a record update.
-/

namespace Sys2Proof.Machine

/-! ### The state after reset -/

@[simp] theorem State.reset_configured : (State.reset).configured = false := rfl
@[simp] theorem State.reset_k : (State.reset).k = 0 := rfl
@[simp] theorem State.reset_size : (State.reset).size = 0 := rfl
@[simp] theorem State.reset_bits : (State.reset).bits = [] := rfl
@[simp] theorem State.reset_cmd : (State.reset).cmd = [] := rfl
@[simp] theorem State.reset_rsp : (State.reset).rsp = [] := rfl
@[simp] theorem State.reset_rst : (State.reset).rst = false := rfl

/-! ### Held in reset -/

@[simp] theorem heldInReset_configured : (heldInReset).configured = false := rfl
@[simp] theorem heldInReset_k : (heldInReset).k = 0 := rfl
@[simp] theorem heldInReset_size : (heldInReset).size = 0 := rfl
@[simp] theorem heldInReset_bits : (heldInReset).bits = [] := rfl
@[simp] theorem heldInReset_cmd : (heldInReset).cmd = [] := rfl
@[simp] theorem heldInReset_rsp : (heldInReset).rsp = [] := rfl
@[simp] theorem heldInReset_rst : (heldInReset).rst = true := rfl

/-! ### The response -/

@[simp] theorem respond_configured (opc : BitVec 8) (e : Err) (m : Bool) (d : Word) (s : State) : (respond opc e m d s).configured = s.configured := rfl
@[simp] theorem respond_k (opc : BitVec 8) (e : Err) (m : Bool) (d : Word) (s : State) : (respond opc e m d s).k = s.k := rfl
@[simp] theorem respond_size (opc : BitVec 8) (e : Err) (m : Bool) (d : Word) (s : State) : (respond opc e m d s).size = s.size := rfl
@[simp] theorem respond_bits (opc : BitVec 8) (e : Err) (m : Bool) (d : Word) (s : State) : (respond opc e m d s).bits = s.bits := rfl
@[simp] theorem respond_cmd (opc : BitVec 8) (e : Err) (m : Bool) (d : Word) (s : State) : (respond opc e m d s).cmd = s.cmd := rfl
@[simp] theorem respond_rsp (opc : BitVec 8) (e : Err) (m : Bool) (d : Word) (s : State) : (respond opc e m d s).rsp = s.rsp ++ [rsp0 opc s.configured m e, d] := rfl
@[simp] theorem respond_rst (opc : BitVec 8) (e : Err) (m : Bool) (d : Word) (s : State) : (respond opc e m d s).rst = s.rst := rfl

/-! ### The error response -/

@[simp] theorem raise_configured (opc : BitVec 8) (e : Err) (s : State) : (raise opc e s).configured = s.configured := rfl
@[simp] theorem raise_k (opc : BitVec 8) (e : Err) (s : State) : (raise opc e s).k = s.k := rfl
@[simp] theorem raise_size (opc : BitVec 8) (e : Err) (s : State) : (raise opc e s).size = s.size := rfl
@[simp] theorem raise_bits (opc : BitVec 8) (e : Err) (s : State) : (raise opc e s).bits = s.bits := rfl
@[simp] theorem raise_cmd (opc : BitVec 8) (e : Err) (s : State) : (raise opc e s).cmd = s.cmd := rfl
@[simp] theorem raise_rsp (opc : BitVec 8) (e : Err) (s : State) : (raise opc e s).rsp = s.rsp ++ [rsp0 opc s.configured false e, 0] := rfl
@[simp] theorem raise_rst (opc : BitVec 8) (e : Err) (s : State) : (raise opc e s).rst = s.rst := rfl

/-! ### Consuming a command's words -/

@[simp] theorem consume_configured (rest : List Word) (s : State) : (consume rest s).configured = s.configured := rfl
@[simp] theorem consume_k (rest : List Word) (s : State) : (consume rest s).k = s.k := rfl
@[simp] theorem consume_size (rest : List Word) (s : State) : (consume rest s).size = s.size := rfl
@[simp] theorem consume_bits (rest : List Word) (s : State) : (consume rest s).bits = s.bits := rfl
@[simp] theorem consume_cmd (rest : List Word) (s : State) : (consume rest s).cmd = rest := rfl
@[simp] theorem consume_rsp (rest : List Word) (s : State) : (consume rest s).rsp = s.rsp := rfl
@[simp] theorem consume_rst (rest : List Word) (s : State) : (consume rest s).rst = s.rst := rfl

/-! ### A reserved opcode -/

@[simp] theorem refuseReserved_configured (opc : BitVec 8) (rest : List Word) (s : State) : (refuseReserved opc rest s).configured = s.configured := rfl
@[simp] theorem refuseReserved_k (opc : BitVec 8) (rest : List Word) (s : State) : (refuseReserved opc rest s).k = s.k := rfl
@[simp] theorem refuseReserved_size (opc : BitVec 8) (rest : List Word) (s : State) : (refuseReserved opc rest s).size = s.size := rfl
@[simp] theorem refuseReserved_bits (opc : BitVec 8) (rest : List Word) (s : State) : (refuseReserved opc rest s).bits = s.bits := rfl
@[simp] theorem refuseReserved_cmd (opc : BitVec 8) (rest : List Word) (s : State) : (refuseReserved opc rest s).cmd = rest := rfl
@[simp] theorem refuseReserved_rsp (opc : BitVec 8) (rest : List Word) (s : State) : (refuseReserved opc rest s).rsp = s.rsp ++ [rsp0 opc s.configured false .opcode, 0] := rfl
@[simp] theorem refuseReserved_rst (opc : BitVec 8) (rest : List Word) (s : State) : (refuseReserved opc rest s).rst = s.rst := rfl

/-! ### Waiting -/

@[simp] theorem awaitWords_configured (s : State) : (awaitWords s).configured = s.configured := rfl
@[simp] theorem awaitWords_k (s : State) : (awaitWords s).k = s.k := rfl
@[simp] theorem awaitWords_size (s : State) : (awaitWords s).size = s.size := rfl
@[simp] theorem awaitWords_bits (s : State) : (awaitWords s).bits = s.bits := rfl
@[simp] theorem awaitWords_cmd (s : State) : (awaitWords s).cmd = s.cmd := rfl
@[simp] theorem awaitWords_rsp (s : State) : (awaitWords s).rsp = s.rsp := rfl
@[simp] theorem awaitWords_rst (s : State) : (awaitWords s).rst = s.rst := rfl

/-! ### The host takes a word -/

@[simp] theorem takeWord_configured (s : State) : (takeWord s).configured = s.configured := rfl
@[simp] theorem takeWord_k (s : State) : (takeWord s).k = s.k := rfl
@[simp] theorem takeWord_size (s : State) : (takeWord s).size = s.size := rfl
@[simp] theorem takeWord_bits (s : State) : (takeWord s).bits = s.bits := rfl
@[simp] theorem takeWord_cmd (s : State) : (takeWord s).cmd = s.cmd := rfl
@[simp] theorem takeWord_rsp (s : State) : (takeWord s).rsp = s.rsp.tail := rfl
@[simp] theorem takeWord_rst (s : State) : (takeWord s).rst = s.rst := rfl

/-! ### The host asserts and releases reset -/

@[simp] theorem assertReset_configured (s : State) : (assertReset s).configured = false := rfl
@[simp] theorem assertReset_k (s : State) : (assertReset s).k = 0 := rfl
@[simp] theorem assertReset_size (s : State) : (assertReset s).size = 0 := rfl
@[simp] theorem assertReset_bits (s : State) : (assertReset s).bits = [] := rfl
@[simp] theorem assertReset_cmd (s : State) : (assertReset s).cmd = [] := rfl
@[simp] theorem assertReset_rsp (s : State) : (assertReset s).rsp = [] := rfl
@[simp] theorem assertReset_rst (s : State) : (assertReset s).rst = true := rfl

@[simp] theorem releaseReset_configured (s : State) : (releaseReset s).configured = s.configured := rfl
@[simp] theorem releaseReset_k (s : State) : (releaseReset s).k = s.k := rfl
@[simp] theorem releaseReset_size (s : State) : (releaseReset s).size = s.size := rfl
@[simp] theorem releaseReset_bits (s : State) : (releaseReset s).bits = s.bits := rfl
@[simp] theorem releaseReset_cmd (s : State) : (releaseReset s).cmd = s.cmd := rfl
@[simp] theorem releaseReset_rsp (s : State) : (releaseReset s).rsp = s.rsp := rfl
@[simp] theorem releaseReset_rst (s : State) : (releaseReset s).rst = false := rfl

/-! ### Placing a table row's words -/

@[simp] theorem placeTableWord_configured (s : State) (nbits w : Nat) : (placeTableWord s nbits w).configured = s.configured := rfl
@[simp] theorem placeTableWord_k (s : State) (nbits w : Nat) : (placeTableWord s nbits w).k = s.k := rfl
@[simp] theorem placeTableWord_size (s : State) (nbits w : Nat) : (placeTableWord s nbits w).size = s.size := rfl
@[simp] theorem placeTableWord_bits (s : State) (nbits w : Nat) : (placeTableWord s nbits w).bits = s.bits := rfl
@[simp] theorem placeTableWord_cmd (s : State) (nbits w : Nat) : (placeTableWord s nbits w).cmd = tableWords nbits w ++ s.cmd := rfl
@[simp] theorem placeTableWord_rsp (s : State) (nbits w : Nat) : (placeTableWord s nbits w).rsp = s.rsp := rfl
@[simp] theorem placeTableWord_rst (s : State) (nbits w : Nat) : (placeTableWord s nbits w).rst = false := rfl

end Sys2Proof.Machine
end

