-- ==== Sys2Proof/Laws/Memory.lean ====
section
/-!
SUPPORT. The bit array as data: a read after a write, that a write keeps the canonical form, and that two canonical
memories that read alike are the same list.
-/

namespace Sys2Proof.Machine

@[simp] theorem Memory.read_nil (a : Nat) : Memory.read [] a = 0 := rfl

theorem Memory.read_cons (c : Host.Cell) (t : Memory) (a : Nat) :
    Memory.read (c :: t) a = if c.1 = a then c.2 else Memory.read t a := rfl

theorem Memory.wf_nil : Memory.wf [] := ⟨List.Pairwise.nil, by simp⟩

theorem Memory.wf_cons {c : Host.Cell} {t : Memory} :
    Memory.wf (c :: t) ↔ (∀ d ∈ t, c.1 < d.1) ∧ c.2 ≠ 0 ∧ Memory.wf t := by
  simp only [Memory.wf, List.pairwise_cons, List.mem_cons, forall_eq_or_imp]
  tauto

/-- An index below every listed one holds `0x00`. -/
theorem Memory.read_eq_zero_of_lt {m : Memory} {a : Nat} (h : ∀ c ∈ m, a < c.1) : Memory.read m a = 0 := by
  induction m with
  | nil => rfl
  | cons c t ih =>
    have hc := h c (by simp)
    rw [Memory.read_cons, if_neg (by omega)]
    exact ih fun d hd => h d (by simp [hd])

/-- A listed cell is what its index holds. -/
theorem Memory.read_of_mem {m : Memory} (hw : m.wf) {c : Host.Cell} (hc : c ∈ m) : Memory.read m c.1 = c.2 := by
  induction m with
  | nil => simp at hc
  | cons d t ih =>
    obtain ⟨hlt, -, ht⟩ := Memory.wf_cons.1 hw
    rcases List.mem_cons.1 hc with rfl | hc
    · simp [Memory.read_cons]
    · have := hlt c hc
      rw [Memory.read_cons, if_neg (by omega), ih ht hc]

/-- The cells of a memory after a write: old ones at other indices, and the new one. -/
theorem Memory.mem_write {m : Memory} {a : Nat} {v : Byte} {c : Host.Cell} (hc : c ∈ Memory.write m a v) :
    c = (a, v) ∨ c ∈ m := by
  induction m with
  | nil =>
    simp only [Memory.write] at hc
    split at hc <;> simp_all
  | cons d t ih =>
    simp only [Memory.write] at hc
    split at hc
    · rcases List.mem_cons.1 hc with rfl | hc
      · simp
      · rcases ih hc with h | h <;> simp [h]
    · split at hc <;> split at hc <;> (simp_all; try tauto)

/-- A write keeps the canonical form. -/
theorem Memory.write_wf {m : Memory} (hw : m.wf) (a : Nat) (v : Byte) : (Memory.write m a v).wf := by
  induction m with
  | nil =>
    simp only [Memory.write]
    split
    · exact Memory.wf_nil
    · exact Memory.wf_cons.2 ⟨by simp, by assumption, Memory.wf_nil⟩
  | cons d t ih =>
    obtain ⟨hlt, hne, ht⟩ := Memory.wf_cons.1 hw
    simp only [Memory.write]
    split
    · rename_i hda
      refine Memory.wf_cons.2 ⟨fun c hc => ?_, hne, ih ht⟩
      rcases Memory.mem_write hc with rfl | hc
      · exact hda
      · exact hlt c hc
    · rename_i hda
      by_cases hv : v = 0
      · rw [if_pos hv]
        split
        · exact ht
        · exact hw
      · rw [if_neg hv]
        refine Memory.wf_cons.2 ⟨fun c hc => ?_, hv, by split <;> assumption⟩
        split at hc
        · rename_i hda'
          have := hlt c hc
          simp only at *
          omega
        · rcases List.mem_cons.1 hc with rfl | hc
          · simp only at *
            omega
          · have := hlt c hc
            simp only at *
            omega

/-- A read after a write: the value written at that index, every other index as before. -/
theorem Memory.read_write {m : Memory} (hw : m.wf) (a : Nat) (v : Byte) (x : Nat) :
    Memory.read (Memory.write m a v) x = if a = x then v else Memory.read m x := by
  induction m with
  | nil =>
    simp only [Memory.write]
    split <;> simp_all [Memory.read_cons]
  | cons d t ih =>
    obtain ⟨hlt, -, ht⟩ := Memory.wf_cons.1 hw
    have below : ∀ y, y ≤ d.1 → Memory.read t y = 0 := fun y hy =>
      Memory.read_eq_zero_of_lt fun c hc => by have := hlt c hc; omega
    simp only [Memory.write]
    split
    · rename_i hda
      rw [Memory.read_cons, ih ht, Memory.read_cons]
      split <;> split <;> first | rfl | omega
    · rename_i hda
      by_cases hv : v = 0
      · subst hv
        rw [if_pos rfl]
        split
        · rename_i hEq
          by_cases hx : a = x
          · rw [if_pos hx, below x (by omega)]
          · rw [if_neg hx, Memory.read_cons, if_neg (by omega)]
        · rename_i hNe
          by_cases hx : a = x
          · rw [if_pos hx, Memory.read_cons, if_neg (by omega), below x (by omega)]
          · rw [if_neg hx]
      · rw [if_neg hv, Memory.read_cons]
        simp only
        by_cases hx : a = x
        · simp [hx]
        · rw [if_neg hx, if_neg hx]
          split
          · rw [Memory.read_cons, if_neg (by omega)]
          · rfl

/-- Canonical memories that read alike are equal. -/
theorem Memory.ext_read {m m' : Memory} (hw : m.wf) (hw' : m'.wf) (h : ∀ a, Memory.read m a = Memory.read m' a) :
    m = m' := by
  induction m generalizing m' with
  | nil =>
    cases m' with
    | nil => rfl
    | cons d t =>
      have := h d.1
      rw [Memory.read_of_mem hw' (by simp)] at this
      exact absurd this.symm (Memory.wf_cons.1 hw').2.1
  | cons c t ih =>
    obtain ⟨hlt, hne, ht⟩ := Memory.wf_cons.1 hw
    cases m' with
    | nil =>
      have := h c.1
      rw [Memory.read_of_mem hw (by simp)] at this
      exact absurd this hne
    | cons d t' =>
      obtain ⟨hlt', hne', ht'⟩ := Memory.wf_cons.1 hw'
      have hcd : c.1 = d.1 := by
        rcases Nat.lt_trichotomy c.1 d.1 with hh | hh | hh
        · have := h c.1
          rw [Memory.read_of_mem hw (by simp), Memory.read_cons, if_neg (by omega),
            Memory.read_eq_zero_of_lt fun e he => by have := hlt' e he; omega] at this
          exact absurd this hne
        · exact hh
        · have := h d.1
          rw [Memory.read_of_mem hw' (by simp), Memory.read_cons, if_neg (by omega),
            Memory.read_eq_zero_of_lt fun e he => by have := hlt e he; omega] at this
          exact absurd this.symm hne'
      have hv : c.2 = d.2 := by
        have := h c.1
        rwa [Memory.read_of_mem hw (by simp), hcd, Memory.read_of_mem hw' (by simp)] at this
      have htail : t = t' := ih ht ht' fun a => by
        have := h a
        rw [Memory.read_cons, Memory.read_cons, ← hcd] at this
        split at this
        · rename_i hca
          rw [Memory.read_eq_zero_of_lt fun e he => by have := hlt e he; omega,
            Memory.read_eq_zero_of_lt fun e he => by have := hlt' e he; omega]
        · exact this
      rw [htail, Prod.ext hcd hv]

@[simp] theorem Memory.read_zeroed (a : Nat) : Memory.read Memory.zeroed a = 0 := rfl

theorem Memory.zeroed_wf : Memory.zeroed.wf := Memory.wf_nil

end Sys2Proof.Machine
end

