-- ==== Sys2Proof/Laws/BitArray.lean ====
section
/-!
SUPPORT. The operations on buckets: one lemma each that says everything the operation can do (R41, R140, R144, R145).
-/

namespace Sys2Proof.Machine

/-! ### Bits of one bucket -/

/-- `test_bit` of R140 is the bit of weight `2^b` (R42). -/
theorem bucketBit_eq (v : Byte) (b : Nat) : bucketBit v b = v.getLsbD b := by
  simp [bucketBit, BitVec.getLsbD, Nat.testBit_eq_decide_div_mod_eq, Nat.shiftRight_eq_div_pow]

@[simp] theorem bucketBit_zero (b : Nat) : bucketBit 0 b = false := by simp [bucketBit_eq]

theorem mask_getLsbD (b x : Nat) : (mask b).getLsbD x = (decide (x < 8) && decide (x = b)) := by
  rw [mask, BitVec.getLsbD_shiftLeft]
  by_cases hx : x < 8 <;> by_cases hb : x = b
  · simp [hb]
  · by_cases hlt : x < b
    · simp [hlt, hb]
    · have : x - b ≠ 0 := by omega
      simp [hx, hlt, hb, this]
  · simp [hx]
  · simp [hx]

/-- ORing the mask of bit `b` into a bucket sets bit `b` and no other (R44, R140). -/
theorem bucketBit_or8_mask (v : Byte) (b x : Nat) (hx : x < 8) :
    bucketBit (or8 v (mask b)) x = (bucketBit v x || decide (x = b)) := by
  rw [bucketBit_eq, bucketBit_eq, or8, BitVec.getLsbD_or, mask_getLsbD]
  simp [hx]

theorem byte_ext {v w : Byte} (h : ∀ b, b < 8 → bucketBit v b = bucketBit w b) : v = w :=
  BitVec.eq_of_getLsbD_eq fun b hb => by simpa [bucketBit_eq] using h b hb

/-! ### Access to a bucket -/

theorem memRead_of_lt {s : State} {a : Nat} (h : a < s.size) : memRead s a = .ok (s.bits.read a) := if_pos h

theorem memRead_of_ge {s : State} {a : Nat} (h : s.size ≤ a) : memRead s a = .error (.noSuchBucket a) :=
  if_neg (by omega)

theorem memWrite_of_lt {s : State} {a : Nat} (h : a < s.size) (v : Byte) :
    memWrite s a v = .ok { s with bits := s.bits.write a v } := if_pos h

theorem memWrite_of_ge {s : State} {a : Nat} (h : s.size ≤ a) (v : Byte) :
    memWrite s a v = .error (.noSuchBucket a) := if_neg (by omega)

theorem setBit_of_lt {s : State} {a : Nat} (h : a < s.size) (b : Nat) :
    setBit s a b = .ok { s with bits := s.bits.write a (or8 (s.bits.read a) (mask b)) } := by
  simp [setBit, memRead_of_lt h, memWrite_of_lt h]

theorem setBit_of_ge {s : State} {a : Nat} (h : s.size ≤ a) (b : Nat) :
    setBit s a b = .error (.noSuchBucket a) := by simp [setBit, memRead_of_ge h]

theorem testBit_of_lt {s : State} {a : Nat} (h : a < s.size) (b : Nat) :
    testBit s a b = .ok (s.bitSet a b) := by simp [testBit, memRead_of_lt h, State.bitSet]

theorem testBit_of_ge {s : State} {a : Nat} (h : s.size ≤ a) (b : Nat) :
    testBit s a b = .error (.noSuchBucket a) := by simp [testBit, memRead_of_ge h]

/-- What `set_bit` leaves in the array: bit `b` of bucket `a` set, every other bit as before (R140). -/
theorem bitSet_write_mask {s : State} (hw : s.bits.wf) (a b x y : Nat) (hy : y < 8) :
    bucketBit ((s.bits.write a (or8 (s.bits.read a) (mask b))).read x) y =
      (s.bitSet x y || decide (x = a ∧ y = b)) := by
  rw [Memory.read_write hw, State.bitSet]
  by_cases h : a = x
  · subst h
    simp [bucketBit_or8_mask _ _ _ hy]
  · have h' : ¬ x = a := fun e => h e.symm
    simp [h, h']

/-! ### A list of pairs -/

/-- Everything `setBits` can do when it succeeds: only the array changes, and every pair was in range. -/
theorem setBits_ok_inv {s t : State} {ps : List (Nat × Nat)} (h : setBits s ps = .ok t) :
    t = { s with bits := t.bits } ∧ ∀ p ∈ ps, p.1 < s.size := by
  induction ps generalizing s with
  | nil => simp only [setBits, Except.ok.injEq] at h; subst h; simp
  | cons p ps ih =>
    by_cases hp : p.1 < s.size
    · rw [setBits, setBit_of_lt hp] at h
      obtain ⟨ht, hall⟩ := ih h
      refine ⟨by rw [ht], fun q hq => ?_⟩
      rcases List.mem_cons.1 hq with rfl | hq
      · exact hp
      · exact hall q hq
    · rw [setBits, setBit_of_ge (by omega)] at h
      simp at h

/-- In range, `setBits` completes and sets exactly the bits of the list (R144). -/
theorem setBits_of_lt {s : State} {ps : List (Nat × Nat)} (hp : ∀ p ∈ ps, p.1 < s.size) :
    ∃ m : Memory, setBits s ps = .ok { s with bits := m } ∧
      (s.bits.wf → m.wf) ∧
      ((∀ c ∈ s.bits, c.1 < s.size) → ∀ c ∈ m, c.1 < s.size) ∧
      (s.bits.wf → ∀ x y, y < 8 → bucketBit (m.read x) y = (s.bitSet x y || decide ((x, y) ∈ ps))) ∧
      (s.bits.wf → ∀ x, x ∉ ps.map Prod.fst → m.read x = s.bits.read x) := by
  induction ps generalizing s with
  | nil => exact ⟨s.bits, by simp [setBits, State.bitSet]⟩
  | cons p ps ih =>
    have hlt := hp p (by simp)
    obtain ⟨m, hm, hwf, hbd, hbit, hframe⟩ := @ih { s with bits := s.bits.write p.1 (or8 (s.bits.read p.1) (mask p.2)) }
      fun q hq => hp q (by simp [hq])
    refine ⟨m, by rw [setBits, setBit_of_lt hlt]; exact hm, fun hw => hwf (Memory.write_wf hw _ _), fun hb => hbd ?_,
      fun hw x y hy => ?_, fun hw x hx => ?_⟩
    · intro c hc
      rcases Memory.mem_write hc with rfl | hc
      · exact hlt
      · exact hb c hc
    · rw [hbit (Memory.write_wf hw _ _) x y hy, State.bitSet, bitSet_write_mask hw _ _ _ _ hy]
      have : (decide ((x, y) ∈ p :: ps)) = (decide (x = p.1 ∧ y = p.2) || decide ((x, y) ∈ ps)) := by
        rw [← Bool.decide_or]
        exact decide_eq_decide.2 (by rw [List.mem_cons, Prod.ext_iff])
      rw [this, Bool.or_assoc]
    · simp only [List.map_cons, List.mem_cons, not_or] at hx
      rw [hframe (Memory.write_wf hw _ _) x hx.2]
      show Memory.read (Memory.write _ _ _) x = _
      rw [Memory.read_write hw, if_neg fun e => hx.1 e.symm]

/-- In range, `testBits` answers whether every bit of the list is set (R145, R146). -/
theorem testBits_of_lt {s : State} {ps : List (Nat × Nat)} (hp : ∀ p ∈ ps, p.1 < s.size) :
    testBits s ps = .ok (ps.all fun p => s.bitSet p.1 p.2) := by
  induction ps with
  | nil => rfl
  | cons p ps ih =>
    rw [testBits, testBit_of_lt (hp p (by simp)), List.all_cons]
    cases s.bitSet p.1 p.2
    · simp
    · simpa using ih fun q hq => hp q (by simp [hq])

/-! ### The ports are not looked at -/

theorem setBits_setCmd (s : State) (c : List Word) (ps : List (Nat × Nat)) :
    setBits { s with cmd := c } ps =
      match setBits s ps with
      | .ok t => .ok { t with cmd := c }
      | .error f => .error f := by
  induction ps generalizing s with
  | nil => rfl
  | cons p ps ih =>
    by_cases hp : p.1 < s.size
    · have h1 := setBit_of_lt hp p.2
      have h2 := setBit_of_lt (s := { s with cmd := c }) hp p.2
      simp only [setBits, h1, h2]
      exact ih { s with bits := s.bits.write p.1 (or8 (s.bits.read p.1) (mask p.2)) }
    · have h1 := setBit_of_ge (s := s) (Nat.le_of_not_lt hp) p.2
      have h2 := setBit_of_ge (s := { s with cmd := c }) (Nat.le_of_not_lt hp) p.2
      simp only [setBits, h1, h2]

theorem testBits_setCmd (s : State) (c : List Word) (ps : List (Nat × Nat)) :
    testBits { s with cmd := c } ps = testBits s ps := by
  induction ps with
  | nil => rfl
  | cons p ps ih => simp only [testBits, testBit, memRead, ih]

theorem setBits_setRsp (s : State) (w : List Word) (ps : List (Nat × Nat)) :
    setBits { s with rsp := w } ps =
      match setBits s ps with
      | .ok t => .ok { t with rsp := w }
      | .error f => .error f := by
  induction ps generalizing s with
  | nil => rfl
  | cons p ps ih =>
    by_cases hp : p.1 < s.size
    · have h1 := setBit_of_lt hp p.2
      have h2 := setBit_of_lt (s := { s with rsp := w }) hp p.2
      simp only [setBits, h1, h2]
      exact ih { s with bits := s.bits.write p.1 (or8 (s.bits.read p.1) (mask p.2)) }
    · have h1 := setBit_of_ge (s := s) (Nat.le_of_not_lt hp) p.2
      have h2 := setBit_of_ge (s := { s with rsp := w }) (Nat.le_of_not_lt hp) p.2
      simp only [setBits, h1, h2]

theorem testBits_setRsp (s : State) (w : List Word) (ps : List (Nat × Nat)) :
    testBits { s with rsp := w } ps = testBits s ps := by
  induction ps with
  | nil => rfl
  | cons p ps ih => simp only [testBits, testBit, memRead, ih]

end Sys2Proof.Machine
end

