-- ==== Sys2Proof/Laws/Decode.lean ====
section
/-!
SUPPORT. Header fields, payload packing and the decoder: one spec lemma per function (R62, R67, R71, R76).
-/

namespace Sys2Proof

/-! ### The header -/

@[simp] theorem hdrOpc_header (opc k : BitVec 8) (len : BitVec 16) : hdrOpc (header opc k len) = opc := by
  apply BitVec.eq_of_getLsbD_eq
  intro i hi
  simp only [hdrOpc, header, BitVec.getLsbD_extractLsb', BitVec.getLsbD_append, hi]
  simp [show ¬ (24 + i < 16) by omega, show ¬ (24 + i - 16 < 8) by omega, show 24 + i - 16 - 8 = i by omega]

@[simp] theorem hdrK_header (opc k : BitVec 8) (len : BitVec 16) : hdrK (header opc k len) = k := by
  apply BitVec.eq_of_getLsbD_eq
  intro i hi
  simp only [hdrK, header, BitVec.getLsbD_extractLsb', BitVec.getLsbD_append, hi]
  simp [show ¬ (16 + i < 16) by omega, hi]

@[simp] theorem hdrLen_header (opc k : BitVec 8) (len : BitVec 16) : hdrLen (header opc k len) = len := by
  apply BitVec.eq_of_getLsbD_eq
  intro i hi
  simp only [hdrLen, header, BitVec.getLsbD_extractLsb', BitVec.getLsbD_append, hi]
  simp [hi]

/-! ### Bytes and words -/

theorem enc32_dec32 (b0 b1 b2 b3 : Byte) : enc32 (dec32 b0 b1 b2 b3) = [b0, b1, b2, b3] := by
  have lane : ∀ (x y : Byte), (∀ i, i < 8 → x.getLsbD i = y.getLsbD i) → x = y := fun x y =>
    fun h => BitVec.eq_of_getLsbD_eq h
  simp only [enc32, dec32, List.cons.injEq, and_true]
  refine ⟨lane _ _ fun i hi => ?_, lane _ _ fun i hi => ?_, lane _ _ fun i hi => ?_, lane _ _ fun i hi => ?_⟩ <;>
    simp only [BitVec.getLsbD_extractLsb', BitVec.getLsbD_append, hi, decide_true, Bool.true_and]
  · simp [hi]
  · simp [hi, show ¬ (8 + i < 8) by omega]
  · simp [hi, show ¬ (16 + i < 8) by omega, show ¬ (16 + i - 8 < 8) by omega, show 16 + i - 8 - 8 = i by omega]
  · simp [show ¬ (24 + i < 8) by omega, show ¬ (24 + i - 8 < 8) by omega, show ¬ (24 + i - 8 - 8 < 8) by omega,
      show 24 + i - 8 - 8 - 8 = i by omega]

@[simp] theorem length_enc32 (w : Word) : (enc32 w).length = 4 := rfl

theorem length_flatMap_enc32 (ws : List Word) : (ws.flatMap enc32).length = 4 * ws.length := by
  induction ws with
  | nil => rfl
  | cons w ws ih => simp only [List.flatMap_cons, List.length_append, length_enc32, ih, List.length_cons]; omega

/-- Payload packing takes `ceil(n / 4)` words (R67). -/
theorem length_packPayload (p : List Byte) : (packPayload p).length = payloadWords p.length := by
  fun_induction packPayload p with
  | case1 b0 b1 b2 b3 t ih => simp only [List.length_cons, ih, payloadWords]; omega
  | case2 | case3 | case4 | case5 => simp [payloadWords]

/-- The lanes of the packed words are the bytes, then zeros (R67). -/
theorem flatMap_enc32_packPayload (p : List Byte) :
    ∃ z, (packPayload p).flatMap enc32 = p ++ List.replicate z 0 := by
  fun_induction packPayload p with
  | case1 b0 b1 b2 b3 t ih =>
    obtain ⟨z, hz⟩ := ih
    exact ⟨z, by simp [enc32_dec32, hz]⟩
  | case2 b0 b1 b2 => exact ⟨1, by simp [enc32_dec32]⟩
  | case3 b0 b1 => exact ⟨2, by simp [enc32_dec32, List.replicate]⟩
  | case4 b0 => exact ⟨3, by simp [enc32_dec32, List.replicate]⟩
  | case5 => exact ⟨0, by simp⟩

/-- Unpacking undoes packing. -/
theorem unpackPayload_packPayload (p : List Byte) : unpackPayload p.length (packPayload p) = p := by
  obtain ⟨z, hz⟩ := flatMap_enc32_packPayload p
  simp [unpackPayload, hz]

theorem length_unpackPayload_le (n : Nat) (ws : List Word) : (unpackPayload n ws).length ≤ n := by
  simp only [unpackPayload, List.length_take]
  omega

/-! ### The decoder -/

/-- Every command is at least its header (R71). -/
theorem cmdlen_pos (hdr : Word) : 1 ≤ cmdlen hdr := by
  unfold cmdlen
  split_ifs <;> omega

theorem decode_of_lt {hdr : Word} {ws : List Word} (h : ws.length + 1 < cmdlen hdr) :
    decode (hdr :: ws) = .waiting := if_pos h

theorem decode_of_le {hdr : Word} {ws : List Word} (h : cmdlen hdr ≤ ws.length + 1) :
    decode (hdr :: ws) = decodeWhole hdr (ws.take (cmdlen hdr - 1)) (ws.drop (cmdlen hdr - 1)) :=
  if_neg (by omega)

/-- A whole command is never waited for (R76). -/
theorem decodeWhole_ne_waiting (hdr : Word) (ops rest : List Word) : decodeWhole hdr ops rest ≠ .waiting := by
  simp only [decodeWhole]
  split_ifs <;> simp

/-- What follows a command does not change how it is read (R61, R71). -/
theorem decodeWhole_rest (hdr : Word) (ops : List Word) :
    (∃ i, ∀ r, decodeWhole hdr ops r = .command i r) ∨ (∀ r, decodeWhole hdr ops r = .reserved (hdrOpc hdr) r) := by
  simp only [decodeWhole]
  split_ifs <;> first | exact .inl ⟨_, fun _ => rfl⟩ | exact .inr fun _ => rfl

end Sys2Proof
end

