-- ==== Sys2Proof/Laws/Hash.lean ====
section
/-!
SUPPORT. The hash and the indexer: the small lemmas the claims about them rest on (R92 to R97, R120 to R126).
-/

namespace Sys2Proof.Machine

/-! ### The chunk loop and the tail -/

theorem hashChunks_four (h : Word) (b0 b1 b2 b3 : Byte) (t : List Byte) :
    hashChunks h (b0 :: b1 :: b2 :: b3 :: t) = hashChunks (mixStep h (dec32 b0 b1 b2 b3)) t := by
  rw [hashChunks]

theorem hashChunks_short (h : Word) {t : List Byte} (ht : t.length < 4) : hashChunks h t = (h, t) := by
  match t with
  | [] | [_] | [_, _] | [_, _, _] => rfl
  | _ :: _ :: _ :: _ :: _ => simp at ht; omega

/-- The tail of a byte sequence: what the whole chunks leave, `n mod 4` bytes from offset `4 * floor(n / 4)` (R95). -/
theorem hashChunks_tail (h : Word) (p : List Byte) : (hashChunks h p).2 = p.drop (4 * (p.length / 4)) := by
  fun_induction hashChunks h p with
  | case1 h b0 b1 b2 b3 t ih =>
    rw [ih, show 4 * ((b0 :: b1 :: b2 :: b3 :: t).length / 4) = 4 * (t.length / 4) + 1 + 1 + 1 + 1 from by
      simp only [List.length_cons]; omega]
    rfl
  | case2 h t ht =>
    have hlt : t.length < 4 := by
      match t, ht with
      | [], _ | [_], _ | [_, _], _ | [_, _, _], _ => simp
      | a :: b :: c :: d :: u, ht => exact absurd rfl (ht a b c d u)
    simp [Nat.div_eq_of_lt hlt]

theorem hash32_nil (seed : Word) : hash32 [] seed = hashFin seed := by
  simp [hash32, hashInit, hashChunks, hashTail, xor32]

/-! ### The indexer -/

theorem emod_lt (z : Int) {n : Nat} (hn : 1 ≤ n) : emod z n < n := by
  have h1 := Int.emod_lt_of_pos z (show (0 : Int) < n by omega)
  have h0 := Int.emod_nonneg z (show (n : Int) ≠ 0 by omega)
  simp only [emod]
  omega

theorem emod_cast (z : Int) {n : Nat} (hn : 1 ≤ n) : (emod z n : Int) = z % n :=
  Int.toNat_of_nonneg (Int.emod_nonneg z (by omega))

theorem bucketIndex_lt (h : Word) {n : Nat} (hn : 1 ≤ n) : bucketIndex h n < n := emod_lt _ hn

theorem bitIndex_lt (h : Word) : bitIndex h < 8 := emod_lt _ (by decide)

@[simp] theorem chainFrom_zero (p : List Byte) (s : Word) : chainFrom p s 0 = [] := rfl

@[simp] theorem chainFrom_succ (p : List Byte) (r : Nat) (s : Word) :
    chainFrom p s (r + 1) = hash32 p s :: chainFrom p (hash32 p s) r := rfl

@[simp] theorem length_chainFrom (p : List Byte) (r : Nat) (s : Word) : (chainFrom p s r).length = r := by
  induction r generalizing s with
  | zero => rfl
  | succ r ih => simp [ih]

@[simp] theorem indices_zero (p : List Byte) (n : Nat) : indices p 0 n = [] := rfl

/-- Every pair of an item's list is in range (R126). -/
theorem indices_lt {p : List Byte} {r n : Nat} (hn : 1 ≤ n) {q : Nat × Nat} (hq : q ∈ indices p r n) :
    q.1 < n ∧ q.2 < 8 := by
  obtain ⟨h, -, rfl⟩ := List.mem_map.1 hq
  exact ⟨bucketIndex_lt h hn, bitIndex_lt h⟩

end Sys2Proof.Machine
end

