-- ==== Sys2Proof/Laws/Exec.lean ====
section
/-!
SUPPORT. Everything each meaning and `step` can do, said once (R98, R142, R144, R145, R171). Later proofs cite these
and do not unfold the meanings.
-/

namespace Sys2Proof.Machine

/-! ### The meanings on their checks -/

theorem execConfig_field {k : BitVec 8} {len : BitVec 16} (h : len ≠ 0) (rs : Word) (s : State) :
    execConfig k len rs s = .next (raise opcConfig .field s) := by
  rw [execConfig, constructFilter, if_pos h]

theorem execConfig_capacity (k : BitVec 8) {rs : Word} (h : Config.maxBuckets < normSize rs) (s : State) :
    execConfig k 0 rs s = .next (raise opcConfig .capacity s) := by
  rw [execConfig, constructFilter, if_neg (by simp), if_pos h]

theorem execConfig_ok (k : BitVec 8) {rs : Word} (h : normSize rs ≤ Config.maxBuckets) (s : State) :
    execConfig k 0 rs s = .next (respond opcConfig .none false (BitVec.ofNat 32 (normSize rs))
      { s with k := k, size := normSize rs, bits := Memory.zeroed, configured := true }) := by
  rw [execConfig, constructFilter, if_neg (by simp), if_neg (by omega)]

theorem execHash_field {k : BitVec 8} (h : k ≠ 0) (seed : Word) (p : List Byte) (s : State) :
    execHash k seed p s = .next (raise opcHash .field s) := if_pos h

theorem execHash_ok (seed : Word) (p : List Byte) (s : State) :
    execHash 0 seed p s = .next (respond opcHash .none false (hash32 p seed) s) := if_neg (by simp)

theorem execAdd_field {k : BitVec 8} (h : k ≠ 0) (p : List Byte) (s : State) :
    execAdd k p s = .next (raise opcAdd .field s) := if_pos h

theorem execAdd_noCfg (p : List Byte) {s : State} (h : s.configured = false) :
    execAdd 0 p s = .next (raise opcAdd .noCfg s) := by
  rw [execAdd, if_neg (by simp), if_pos h]

theorem execQuery_field {k : BitVec 8} (h : k ≠ 0) (p : List Byte) (s : State) :
    execQuery k p s = .next (raise opcQuery .field s) := if_pos h

theorem execQuery_noCfg (p : List Byte) {s : State} (h : s.configured = false) :
    execQuery 0 p s = .next (raise opcQuery .noCfg s) := by
  rw [execQuery, if_neg (by simp), if_pos h]

/-! ### The meanings on a filter -/

@[simp] theorem orFault_ok {α : Type} (a : α) (f : α → State) : orFault (.ok a) f = .next (f a) := rfl

@[simp] theorem orFault_error {α : Type} (e : Fault) (f : α → State) : orFault (.error e) f = .fault e := rfl

theorem orFault_next_inv {α : Type} {r : Except Fault α} {f : α → State} {t : State} (h : orFault r f = .next t) :
    ∃ a, r = .ok a ∧ t = f a := by
  cases r with
  | error e => cases h
  | ok a => cases h; exact ⟨a, rfl, rfl⟩

theorem execAdd_cfg (p : List Byte) {s : State} (h : s.configured = true) :
    execAdd 0 p s =
      orFault (setBits s (indices p s.k.toNat s.size)) fun s' => respond opcAdd .none false 0 s' := by
  rw [execAdd, if_neg (by simp), if_neg (by simp [h])]

theorem execQuery_cfg (p : List Byte) {s : State} (h : s.configured = true) :
    execQuery 0 p s =
      orFault (testBits s (indices p s.k.toNat s.size)) fun m => respond opcQuery .none m 0 s := by
  rw [execQuery, if_neg (by simp), if_neg (by simp [h])]

/-- With at least one bucket `ADD` completes (R126): only the array and the response port change, and the array gets
exactly the bits of the item's pairs (R144). -/
theorem execAdd_ok (p : List Byte) {s : State} (h : s.configured = true) (hn : 1 ≤ s.size) :
    ∃ m : Memory, execAdd 0 p s = .next (respond opcAdd .none false 0 { s with bits := m }) ∧
      (s.bits.wf → m.wf) ∧
      ((∀ c ∈ s.bits, c.1 < s.size) → ∀ c ∈ m, c.1 < s.size) ∧
      (s.bits.wf → ∀ x y, y < 8 →
        bucketBit (m.read x) y = (s.bitSet x y || decide ((x, y) ∈ indices p s.k.toNat s.size))) ∧
      (s.bits.wf → ∀ x, x ∉ (indices p s.k.toNat s.size).map Prod.fst → m.read x = s.bits.read x) := by
  obtain ⟨m, hm, rest⟩ := setBits_of_lt (s := s) fun q hq => (indices_lt (p := p) (r := s.k.toNat) hn hq).1
  exact ⟨m, by rw [execAdd_cfg p h, hm, orFault_ok], rest⟩

/-- With at least one bucket `QUERY` completes (R126), writes nothing and answers whether every bit of the item's pairs
is set (R145). -/
theorem execQuery_ok (p : List Byte) {s : State} (h : s.configured = true) (hn : 1 ≤ s.size) :
    execQuery 0 p s = .next (respond opcQuery .none
      ((indices p s.k.toNat s.size).all fun q => s.bitSet q.1 q.2) 0 s) := by
  rw [execQuery_cfg p h, testBits_of_lt fun q hq => (indices_lt hn hq).1, orFault_ok]

/-! ### Inversion -/

/-- What any command that answers a next state has done: one response on the port, nothing else at the ports, and one
of the four effects. -/
theorem exec_next_inv {i : Instr} {s t : State} (h : exec i s = .next t) :
    ∃ (u : State) (e : Err) (m : Bool) (d : Word), t = respond i.opc e m d u ∧ u.cmd = s.cmd ∧ u.rsp = s.rsp ∧
      u.rst = s.rst ∧
      (u = s ∨
        (∃ k rs, i = .config k 0 rs ∧ normSize rs ≤ Config.maxBuckets ∧
          u = { s with k := k, size := normSize rs, bits := Memory.zeroed, configured := true }) ∨
        (∃ p, i = .add 0 p ∧ s.configured = true ∧ setBits s (indices p s.k.toNat s.size) = .ok u)) := by
  cases i with
  | config k len rs =>
    simp only [exec, execConfig, constructFilter, Host.Outcome.next.injEq] at h
    split_ifs at h with h1 h2
    · exact ⟨s, .field, false, 0, h.symm, rfl, rfl, rfl, .inl rfl⟩
    · exact ⟨s, .capacity, false, 0, h.symm, rfl, rfl, rfl, .inl rfl⟩
    · obtain rfl : len = 0 := by simpa using h1
      exact ⟨_, .none, false, _, h.symm, rfl, rfl, rfl, .inr (.inl ⟨k, rs, rfl, by omega, rfl⟩)⟩
  | hash k seed p =>
    simp only [exec, execHash] at h
    split_ifs at h <;> cases h
    · exact ⟨s, .field, false, 0, rfl, rfl, rfl, rfl, .inl rfl⟩
    · exact ⟨s, .none, false, _, rfl, rfl, rfl, rfl, .inl rfl⟩
  | add k p =>
    simp only [exec, execAdd] at h
    split_ifs at h with h1 h2
    · cases h; exact ⟨s, .field, false, 0, rfl, rfl, rfl, rfl, .inl rfl⟩
    · cases h; exact ⟨s, .noCfg, false, 0, rfl, rfl, rfl, rfl, .inl rfl⟩
    · obtain rfl : k = 0 := by simpa using h1
      obtain ⟨u, hu, rfl⟩ := orFault_next_inv h
      · have hu' := (setBits_ok_inv hu).1
        exact ⟨u, .none, false, 0, rfl, by rw [hu'], by rw [hu'], by rw [hu'],
          .inr (.inr ⟨p, rfl, by simpa using h2, hu⟩)⟩
  | query k p =>
    simp only [exec, execQuery] at h
    split_ifs at h
    · cases h; exact ⟨s, .field, false, 0, rfl, rfl, rfl, rfl, .inl rfl⟩
    · cases h; exact ⟨s, .noCfg, false, 0, rfl, rfl, rfl, rfl, .inl rfl⟩
    · obtain ⟨m, -, rfl⟩ := orFault_next_inv h
      · exact ⟨s, .none, m, 0, rfl, rfl, rfl, rfl, .inl rfl⟩

/-- What a step can be: held in reset, waiting, the refusal of a reserved opcode, or one command (R49, R69, R200). -/
theorem step_cases (s : State) :
    (s.rst = true ∧ step s = .next heldInReset) ∨
    (s.rst = false ∧ decode s.cmd = .waiting ∧ step s = .next s) ∨
    (∃ opc rest, s.rst = false ∧ decode s.cmd = .reserved opc rest ∧ step s = .next (refuseReserved opc rest s)) ∨
    (∃ i rest, s.rst = false ∧ decode s.cmd = .command i rest ∧ step s = exec i (consume rest s)) := by
  cases hr : s.rst with
  | true => exact .inl ⟨rfl, by simp [step, hr]⟩
  | false =>
    refine .inr ?_
    cases hd : decode s.cmd with
    | waiting => exact .inl ⟨rfl, rfl, by simp [step, hr, fetch, hd, awaitWords]⟩
    | reserved opc rest => exact .inr (.inl ⟨opc, rest, rfl, rfl, by simp [step, hr, fetch, hd]⟩)
    | command i rest => exact .inr (.inr ⟨i, rest, rfl, rfl, by simp [step, hr, fetch, hd]⟩)

/-- What waits at the command port is not looked at by a command in execution (R49). -/
theorem exec_setCmd (i : Instr) (s : State) (c : List Word) :
    exec i { s with cmd := c } =
      match exec i s with
      | .next t => .next { t with cmd := c }
      | .fault f => .fault f
      | .refused r => .refused r := by
  cases i with
  | config k len rs => simp only [exec, execConfig, constructFilter]; split_ifs <;> rfl
  | hash k seed p => simp only [exec, execHash]; split_ifs <;> rfl
  | add k p =>
    simp only [exec, execAdd, setBits_setCmd]
    split_ifs <;> try rfl
    cases setBits s (indices p s.k.toNat s.size) <;> rfl
  | query k p =>
    simp only [exec, execQuery, testBits_setCmd]
    split_ifs <;> try rfl
    cases testBits s (indices p s.k.toNat s.size) <;> rfl

/-- A command does not look at the responses before its own: it appends to them (R68). -/
theorem exec_setRsp (i : Instr) (s : State) (w : List Word) :
    exec i { s with rsp := w } =
      match exec i { s with rsp := [] } with
      | .next t => .next { t with rsp := w ++ t.rsp }
      | .fault f => .fault f
      | .refused r => .refused r := by
  cases i with
  | config k len rs =>
    simp only [exec, execConfig, constructFilter, raise, respond]
    split_ifs <;> rfl
  | hash k seed p =>
    simp only [exec, execHash, raise, respond]
    split_ifs <;> rfl
  | add k p =>
    simp only [exec, execAdd, setBits_setRsp, raise, respond]
    split_ifs <;> try rfl
    cases h : setBits s (indices p s.k.toNat s.size) <;> rfl
  | query k p =>
    simp only [exec, execQuery, testBits_setRsp, raise, respond]
    split_ifs <;> try rfl
    cases testBits s (indices p s.k.toNat s.size) <;> rfl

end Sys2Proof.Machine
end

