-- ==== Sys2Proof/Laws/PerInstr.lean ====
section
/-!
SUPPORT. A statement about every command as syntax: the first word of its encoding is a header with its opcode (R62,
R63), and the header alone measures the encoding (R61, R71). One lemma per constructor.
-/

namespace Sys2Proof.Laws.EncodedLength

/-- The encoding of `i` starts with a header that carries `i`'s opcode and is `cmdlen` words long by that header. -/
def Statement (i : Instr) : Prop :=
  i.WellFormed →
    ∃ hdr ws, encode i = hdr :: ws ∧ hdrOpc hdr = i.opc ∧ (encode i).length = cmdlen hdr

/-- The `LEN` field of a well-formed payload is its length. -/
theorem toNat_len {p : List Byte} (h : p.length ≤ Config.maxLen) : (BitVec.ofNat 16 p.length).toNat = p.length := by
  simp only [Config.maxLen] at h
  simp only [BitVec.toNat_ofNat]
  omega

theorem config (k : BitVec 8) (len : BitVec 16) (reqSize : Word) : Statement (.config k len reqSize) := fun _ =>
  ⟨_, _, rfl, hdrOpc_header _ _ _, by simp [encode, cmdlen]⟩

theorem hash (k : BitVec 8) (seed : Word) (payload : List Byte) : Statement (.hash k seed payload) := fun h =>
  ⟨_, _, rfl, hdrOpc_header _ _ _, by
    have h' := toNat_len (p := payload) h
    simp only [encode, List.length_cons, length_packPayload, cmdlen, hdrOpc_header, hdrLen_header, h']
    simp [opcConfig, opcHash]; omega⟩

theorem add (k : BitVec 8) (payload : List Byte) : Statement (.add k payload) := fun h =>
  ⟨_, _, rfl, hdrOpc_header _ _ _, by
    have h' := toNat_len (p := payload) h
    simp only [encode, List.length_cons, length_packPayload, cmdlen, hdrOpc_header, hdrLen_header, h']
    simp [opcConfig, opcHash, opcAdd]; omega⟩

theorem query (k : BitVec 8) (payload : List Byte) : Statement (.query k payload) := fun h =>
  ⟨_, _, rfl, hdrOpc_header _ _ _, by
    have h' := toNat_len (p := payload) h
    simp only [encode, List.length_cons, length_packPayload, cmdlen, hdrOpc_header, hdrLen_header, h']
    simp [opcConfig, opcHash, opcAdd, opcQuery]; omega⟩

end Sys2Proof.Laws.EncodedLength
end

