-- ==== Sys2Proof/Laws/Run.lean ====
section
/-!
SUPPORT. Runs: one step, one command, one event, one item at a time (R49, R210).
-/

namespace Sys2Proof.Machine

theorem run_zero (s : State) : Host.Core.run Sys2Proof.core 0 s = .next s := rfl

theorem run_succ_next {s t : State} (h : step s = .next t) (n : Nat) :
    Host.Core.run Sys2Proof.core (n + 1) s = Host.Core.run Sys2Proof.core n t := by
  have h' : Sys2Proof.core.step s = .next t := h
  simp only [Host.Core.run, h']

theorem run_succ_fault {s : State} {f : Fault} (h : step s = .fault f) (n : Nat) :
    Host.Core.run Sys2Proof.core (n + 1) s = .fault f := by
  have h' : Sys2Proof.core.step s = .fault f := h
  simp only [Host.Core.run, h']

theorem run_succ_refused {s : State} {r : Refusal} (h : step s = .refused r) (n : Nat) :
    Host.Core.run Sys2Proof.core (n + 1) s = .refused r := by
  have h' : Sys2Proof.core.step s = .refused r := h
  simp only [Host.Core.run, h']

/-- A run that answers a next state took a step that did. -/
theorem run_succ_inv {s t : State} {n : Nat} (h : Host.Core.run Sys2Proof.core (n + 1) s = .next t) :
    ∃ u, step s = .next u ∧ Host.Core.run Sys2Proof.core n u = .next t := by
  cases hs : step s with
  | next u => exact ⟨u, rfl, by rwa [run_succ_next hs] at h⟩
  | fault f => rw [run_succ_fault hs] at h; cases h
  | refused r => rw [run_succ_refused hs] at h; cases h

/-- A run of `m + n` steps is a run of `m` and then one of `n`. -/
theorem run_add {s t : State} {m : Nat} (h : Host.Core.run Sys2Proof.core m s = .next t) (n : Nat) :
    Host.Core.run Sys2Proof.core (m + n) s = Host.Core.run Sys2Proof.core n t := by
  induction m generalizing s with
  | zero => cases h; simp
  | succ m ih =>
    obtain ⟨u, hu, h⟩ := run_succ_inv h
    rw [Nat.succ_add, run_succ_next hu, ih h]

theorem runCommands_cons_next {i : Instr} {s t : State} (h : exec i s = .next t) (is : List Instr) :
    runCommands (i :: is) s = runCommands is t := by simp only [runCommands, h]

/-- A run of commands that answers a next state ran a first command that did. -/
theorem runCommands_cons_inv {i : Instr} {is : List Instr} {s t : State} (h : runCommands (i :: is) s = .next t) :
    ∃ u, exec i s = .next u ∧ runCommands is u = .next t := by
  cases he : exec i s with
  | next u => exact ⟨u, rfl, by rwa [runCommands_cons_next he] at h⟩
  | fault f => simp [runCommands, he] at h
  | refused r => simp [runCommands, he] at h

/-! ### The result of a run -/

/-- Pairing the words of responses gives the responses. -/
@[simp] theorem pairWords_responseWords (rs : List (Word × Word)) : pairWords (responseWords rs) = rs := by
  induction rs with
  | nil => rfl
  | cons r rs ih => exact congrArg (r :: ·) ih

@[simp] theorem responseWords_append (rs qs : List (Word × Word)) :
    responseWords (rs ++ qs) = responseWords rs ++ responseWords qs := List.flatMap_append

@[simp] theorem finalOf_setRsp (s : State) (w : List Word) : finalOf { s with rsp := w } = finalOf s := rfl

@[simp] theorem finalOf_setCmd (s : State) (w : List Word) : finalOf { s with cmd := w } = finalOf s := rfl

@[simp] theorem resetBlock_eq (s : State) : resetBlock s = State.reset := rfl

/-- What an item that is no reset can do: one response of two words on the empty port, nothing else at the ports
(R68, R69). -/
theorem runItem_next_inv {x : RunItem} {s t : State} (hx : x ≠ .reset) (h : runItem x { s with rsp := [] } = .next t) :
    ∃ r0 r1, t.rsp = [r0, r1] ∧ t.cmd = s.cmd ∧ t.rst = s.rst := by
  cases x with
  | command i =>
    obtain ⟨u, e, m, d, rfl, hc, hr, hs, -⟩ := exec_next_inv h
    exact ⟨_, d, by rw [respond_rsp, hr]; rfl, hc, hs⟩
  | reserved hdr => cases h; exact ⟨_, _, rfl, rfl, rfl⟩
  | reset => exact absurd rfl hx

theorem runItems_cons_next {x : RunItem} {xs : List RunItem} {s t : State} {r : RunResult}
    (h : runItem x { s with rsp := [] } = .next t) (hr : runItems xs t = .next r) :
    runItems (x :: xs) s = .next ⟨pairWords t.rsp ++ r.responses, r.final⟩ := by
  simp only [runItems, h, hr]

/-- A run with a result ran a first item that answered, and a rest with a result. -/
theorem runItems_cons_inv {x : RunItem} {xs : List RunItem} {s : State} {r : RunResult}
    (h : runItems (x :: xs) s = .next r) :
    ∃ t q, runItem x { s with rsp := [] } = .next t ∧ runItems xs t = .next q ∧
      r = ⟨pairWords t.rsp ++ q.responses, q.final⟩ := by
  simp only [runItems] at h
  cases hx : runItem x { s with rsp := [] } with
  | fault f => simp [hx] at h
  | refused f => simp [hx] at h
  | next t =>
    simp only [hx] at h
    cases hq : runItems xs t with
    | fault f => simp [hq] at h
    | refused f => simp [hq] at h
    | next q =>
      simp only [hq, Host.Outcome.next.injEq] at h
      exact ⟨t, q, rfl, hq, h.symm⟩

/-! ### What the host takes -/

theorem runTaken_host {m : HostMove} {es : List Event} {s t : State} {ws : List Word}
    (h : runTaken es (hostMove m s) = .next (ws, t)) :
    runTaken (.host m :: es) s = .next (takenBy m s ++ ws, t) := by
  simp only [runTaken, h]

theorem runTaken_block {es : List Event} {s u : State} (h : step s = .next u) :
    runTaken (.block :: es) s = runTaken es u := by
  simp only [runTaken, h]

/-- Two runs of events one after the other: the words taken in the first come first. -/
theorem runTaken_append {es fs : List Event} {s t u : State} {ws vs : List Word}
    (h : runTaken es s = .next (ws, t)) (hf : runTaken fs t = .next (vs, u)) :
    runTaken (es ++ fs) s = .next (ws ++ vs, u) := by
  induction es generalizing s ws with
  | nil => cases h; exact hf
  | cons e es ih =>
    cases e with
    | host m =>
      simp only [runTaken] at h
      cases hr : runTaken es (hostMove m s) with
      | fault f => simp [hr] at h
      | refused f => simp [hr] at h
      | next p =>
        obtain ⟨ws', t'⟩ := p
        simp only [hr, Host.Outcome.next.injEq, Prod.mk.injEq] at h
        obtain ⟨rfl, rfl⟩ := h
        rw [List.cons_append, runTaken_host (ih hr), List.append_assoc]
    | block =>
      cases hs : step s with
      | fault f => simp [runTaken, hs] at h
      | refused f => simp [runTaken, hs] at h
      | next s' =>
        rw [runTaken_block hs] at h
        rw [List.cons_append, runTaken_block hs, ih h]

/-- Where the words taken are not asked for, the run with them is the run of events. -/
theorem runEvents_eq_of_runTaken {es : List Event} {s t : State} {ws : List Word}
    (h : runTaken es s = .next (ws, t)) : runEvents es s = .next t := by
  induction es generalizing s ws with
  | nil => cases h; rfl
  | cons e es ih =>
    cases e with
    | host m =>
      simp only [runTaken] at h
      cases hr : runTaken es (hostMove m s) with
      | fault f => simp [hr] at h
      | refused f => simp [hr] at h
      | next p =>
        obtain ⟨ws', t'⟩ := p
        simp only [hr, Host.Outcome.next.injEq, Prod.mk.injEq] at h
        obtain ⟨rfl, rfl⟩ := h
        exact ih hr
    | block =>
      cases hs : step s with
      | fault f => simp [runTaken, hs] at h
      | refused f => simp [runTaken, hs] at h
      | next s' =>
        rw [runTaken_block hs] at h
        simp only [runEvents, hs]
        exact ih h

end Sys2Proof.Machine
end

