-- ==== Sys2Proof/Tests/Slice0.lean ====
section
/-!
SUPPORT. Tests: the smoke test of `WellFormed`, decoding of words written out from the spec, one or two steps for each
command with the results of spec/95_test_vectors.md, and, for every obligation with hypotheses, named theorems that
show a state and operands meeting them.
-/

namespace Sys2Proof.Tests

open Sys2Proof.Machine Sys2Proof.Claims

/-! ### States the tests start from -/

/-- The next state of an outcome, or the result of a run, as data that can be compared. -/
def nextOf {α : Type} : Host.Outcome α Fault Refusal → Option α
  | .next t => some t
  | .fault _ => none
  | .refused _ => none

theorem of_nextOf {α : Type} {o : Host.Outcome α Fault Refusal} {t : α} (h : nextOf o = some t) : o = .next t := by
  cases o with
  | next u => exact congrArg _ (Option.some.inj h)
  | fault f => cases h
  | refused r => cases h

/-- The block after reset with these words sent. -/
def blank (cmd : List Word) : State := { State.reset with cmd := cmd }

/-- The block `(1, 3, 9, bits)` of the vectors F1 to F7 with these words sent. -/
def filter9 (bits : Memory) (cmd : List Word) : State :=
  { configured := true, k := 3, size := 9, bits := bits, cmd := cmd, rsp := [], rst := false }

/-- `[22 00 00 00 00 40 00 00 00]`, the filter that holds "hello". -/
def hello : Memory := [(0, 0x22), (5, 0x40)]

/-- "hello" as bytes. -/
def helloBytes : List Byte := [0x68, 0x65, 0x6c, 0x6c, 0x6f]

/-- "world" as bytes. -/
def worldBytes : List Byte := [0x77, 0x6f, 0x72, 0x6c, 0x64]

theorem test_blank_inv (cmd : List Word) : (blank cmd).Inv :=
  ⟨by simp [blank, State.reset, Memory.wf], by simp [blank, State.reset], fun _ => ⟨rfl, rfl⟩,
    fun h => Bool.noConfusion h⟩

theorem test_filter9_inv (cmd : List Word) : (filter9 hello cmd).Inv :=
  ⟨show Memory.wf hello by decide, show ∀ c ∈ hello, c.1 < 9 by decide, fun h => Bool.noConfusion h,
    fun _ => (by decide : 9 % 2 = 1 ∧ 1 ≤ 9 ∧ 9 ≤ Config.maxBuckets)⟩

/-- A state no run reaches in which `SIZE` is at its greatest legal value. -/
theorem test_greatest_inv : (⟨true, 255, 8191, [(8190, 0xff)], [], [], false⟩ : State).Inv :=
  ⟨by decide, by decide, by decide, by decide⟩

/-! ### WellFormed: the one check, and a term it refuses (R62, D34) -/

theorem test_wf_config : (Instr.config 255 0xffff 0xffffffff).WellFormed := by decide

theorem test_wf_add_longest : (Instr.add 0 (List.replicate 65535 0)).WellFormed :=
  Nat.le_of_eq List.length_replicate

/-- A payload of 65536 bytes fits no `LEN` field. -/
theorem test_too_long : ¬ (List.replicate 65536 (0 : Byte)).length ≤ Config.maxLen := by
  rw [List.length_replicate]
  decide

theorem test_wf_refuses_hash : ¬ (Instr.hash 0 0 (List.replicate 65536 0)).WellFormed := test_too_long

theorem test_wf_refuses_add : ¬ (Instr.add 0 (List.replicate 65536 0)).WellFormed := test_too_long

theorem test_wf_refuses_query : ¬ (Instr.query 0 (List.replicate 65536 0)).WellFormed := test_too_long

/-! ### Decoding, by words written out from R62 to R67 (vectors W1, W9, W10, W14, W18, Q4, Q7) -/

theorem test_decode_config : decode [0x01030000, 0x00000040] = .command (.config 3 0 64) [] := by decide

/-- The must-be-zero field is part of the command, and `CONFIG` is two words whatever it holds (R71, Q7). -/
theorem test_decode_config_len :
    decode [0x01030004, 0x00000040, 0x04000000] = .command (.config 3 4 64) [0x04000000] := by decide

theorem test_decode_hash :
    decode [0x02000007, 0x9747b28c, 0x64636261, 0x00676665] =
      .command (.hash 0 0x9747b28c [0x61, 0x62, 0x63, 0x64, 0x65, 0x66, 0x67]) [] := by decide

theorem test_decode_add : decode [0x03000003, 0x00828180] = .command (.add 0 [0x80, 0x81, 0x82]) [] := by decide

theorem test_decode_query :
    decode [0x0400000b, 0x6c6c6568, 0x6f77206f, 0x00646c72] =
      .command (.query 0 [0x68, 0x65, 0x6c, 0x6c, 0x6f, 0x20, 0x77, 0x6f, 0x72, 0x6c, 0x64]) [] := by decide

theorem test_decode_zero_is_reserved : decode [0x00000000] = .reserved 0x00 [] := by decide

theorem test_decode_waits : decode [0x03000005, 0x6c6c6568] = .waiting := by decide

theorem test_encode_hash : encode (.hash 0 0xffffffff [0x61]) = [0x02000001, 0xffffffff, 0x00000061] := by decide

theorem test_decodeTableWord_config : decodeTableWord 32 0x01ff0000 = some (.config 255 0 0) := by decide

theorem test_decodeTableWord_reserved : decodeTableWord 32 0x05000000 = none := by decide

theorem test_assemble_text :
    assemble (.add (.text ['h', 'e', 'l', 'l', 'o'])) = some [0x03000005, 0x6c6c6568, 0x0000006f] := by decide

/-! ### One step for each command (vectors Z16, Q13, T1, F1, F6, F3, F4, Q16) -/

theorem test_step_config :
    nextOf (step (blank [0x01030000, 0x00000040])) =
      some { filter9 [] [] with rsp := [0x01000200, 0x00000009] } := by decide

theorem test_step_config_capacity :
    nextOf (step (filter9 hello [0x01010000, 0x00010000])) =
      some { filter9 hello [] with rsp := [0x01000204, 0x00000000] } := by decide

theorem test_step_hash :
    nextOf (step (blank [0x02000004, 0x00000000, 0x64636261])) =
      some { blank [] with rsp := [0x02000000, 0x36a0cf22] } := by decide

theorem test_step_hash_tail :
    nextOf (step (blank [0x02000007, 0x9747b28c, 0x64636261, 0xff676665])) =
      some { blank [] with rsp := [0x02000000, 0x4c1ac248] } := by decide

theorem test_step_add :
    nextOf (step (filter9 [] [0x03000005, 0x6c6c6568, 0x0000006f])) =
      some { filter9 hello [] with rsp := [0x03000200, 0x00000000] } := by decide

theorem test_step_add_empty :
    nextOf (step (filter9 hello [0x03000000])) =
      some { filter9 [(0, 0x23), (5, 0x40)] [] with rsp := [0x03000200, 0x00000000] } := by decide

theorem test_step_query_hit :
    nextOf (step (filter9 hello [0x04000005, 0x6c6c6568, 0x0000006f])) =
      some { filter9 hello [] with rsp := [0x04000300, 0x00000000] } := by decide

theorem test_step_query_miss :
    nextOf (step (filter9 hello [0x04000005, 0x6c726f77, 0x00000064])) =
      some { filter9 hello [] with rsp := [0x04000200, 0x00000000] } := by decide

theorem test_step_reserved :
    nextOf (step (filter9 hello [0xab000000])) =
      some { filter9 hello [] with rsp := [0xab000201, 0x00000000] } := by decide

/-- A word placed where the next step fetches is run by it. -/
theorem test_withFetchWord :
    nextOf (step (State.reset.withFetchWord 32 0x04000000)) =
      some { blank [] with rsp := [0x04000003, 0x00000000] } := by decide

/-! ### Witnesses: encoding and the stream -/

theorem test_wit_round_trip :
    (Instr.config 3 4 64).WellFormed ∧ (Instr.hash 1 0xffffffff [0x80]).WellFormed ∧
      (Instr.add 0 []).WellFormed ∧ (Instr.query 0 helloBytes).WellFormed := by decide

/-- `CommandLengthIsConsumed`: each opcode, and the last clause executed, refused and with a reserved opcode. -/
theorem test_wit_command_length :
    (0x0100ffff : Word).extractLsb' 24 8 = 0x01 ∧ (0x0200ffff : Word).extractLsb' 24 8 = 0x02 ∧
      (0x03000000 : Word).extractLsb' 24 8 = 0x03 ∧ (0x04000001 : Word).extractLsb' 24 8 = 0x04 ∧
      (0x0500ffff : Word).extractLsb' 24 8 ∉ [0x01, 0x02, 0x03, 0x04] := by decide

theorem test_wit_command_consumed :
    (∀ c, (blank c).Inv ∧ (blank c).rst = false) ∧
      cmdlen 0x03000005 = (blank [0x03000005, 0x6c6c6568, 0x0000006f]).cmd.length ∧
      cmdlen 0x01030004 ≤ (blank [0x01030004, 0x00000040, 0x00000000]).cmd.length ∧
      cmdlen 0x00000000 ≤ (blank [0x00000000]).cmd.length :=
  ⟨fun c => ⟨test_blank_inv c, rfl⟩, by decide, by decide, by decide⟩

/-- `OpcodeSelectsCommand`: payload words of each length class for each opcode, and both ends of the reserved range. -/
theorem test_wit_opcode :
    ([] : List Word).length = ((0x02000000 : Word).extractLsb' 0 16).toNat ⌈/⌉ 4 ∧
      ([0x61] : List Word).length = ((0x03000001 : Word).extractLsb' 0 16).toNat ⌈/⌉ 4 ∧
      ([0x6c6c6568, 0x6f] : List Word).length = ((0x04000005 : Word).extractLsb' 0 16).toNat ⌈/⌉ 4 ∧
      (0x00000000 : Word).extractLsb' 24 8 ∉ [0x01, 0x02, 0x03, 0x04] ∧
      (0xff000000 : Word).extractLsb' 24 8 ∉ [0x01, 0x02, 0x03, 0x04] := by decide

/-- `PayloadPackingAndPadding`: the vectors F10 and F11, alike but for a padding lane, and its other clauses at the
last lane and the last byte. -/
theorem test_wit_padding :
    (0x03000003 : Word).extractLsb' 24 8 ∈ [0x02, 0x03, 0x04] ∧
      ([] : List Word).length = (if (0x03000003 : Word).extractLsb' 24 8 = 0x02 then 1 else 0) ∧
      ([0xff636261] : List Word).length = ((0x03000003 : Word).extractLsb' 0 16).toNat ⌈/⌉ 4 ∧
      (∀ i, i < ((0x03000003 : Word).extractLsb' 0 16).toNat →
        (([0xff636261] : List Word).getD (i / 4) 0).extractLsb' (8 * (i % 4)) 8 =
          (([0x00636261] : List Word).getD (i / 4) 0).extractLsb' (8 * (i % 4)) 8) ∧
      7 < 4 * (packPayload helloBytes).length ∧ 4 ≤ 4 * ([0xff636261] : List Word).length := by decide

/-- `AssembledLineDecodes`: each form at the ends of its ranges, and the values just beyond them. -/
theorem test_wit_assemble :
    (assemble (.config 4294967295 255)).isSome ∧ (assemble (.hash (-1) (.text ['a']))).isSome ∧
      (assemble (.add (.hex []))).isSome ∧ (assemble (.query (.hex [0x80]))).isSome := by decide

theorem test_wit_assemble_seed :
    asmInstr (.hash (-1) (.hex [])) = some (.hash 0 0xffffffff []) ∧
      asmInstr (.hash 0x9747b28c (.hex [])) = some (.hash 0 0x9747b28c []) ∧
      asmBytes (.text [Char.ofNat 127]) = some [0x7f] := by decide

theorem test_wit_assemble_none :
    asmInstr (.config 4294967296 0) = none ∧ asmInstr (.config 0 256) = none ∧
      asmBytes (.text [Char.ofNat 128]) = none := by decide

theorem asmInstr_add_too_long {p : List Byte} (h : ¬ p.length ≤ Config.maxLen) : asmInstr (.add (.hex p)) = none := by
  simp [asmInstr, asmPayload, asmBytes, Nat.lt_of_not_le h]

theorem test_wit_assemble_longest :
    (List.replicate 65535 (0 : Byte)).length ≤ 65535 ∧ asmInstr (.add (.hex (List.replicate 65536 0))) = none :=
  ⟨Nat.le_of_eq List.length_replicate, asmInstr_add_too_long test_too_long⟩

theorem test_wit_step_runs :
    (filter9 hello [0x04000000, 0xab000000]).rst = false ∧
      decode (filter9 hello [0x04000000, 0xab000000]).cmd = .command (.query 0 []) [0xab000000] := by decide

/-- `StepWaitsForWholeCommand`: idle, and one word short (T3). -/
theorem test_wit_waits :
    (blank []).rst = false ∧ (blank []).cmd = [] ∧
      (blank [0x03000005, 0x6c6c6568]).cmd.length + 1 = cmdlen 0x03000005 := by decide

theorem test_wit_reserved :
    (filter9 hello [0xab000000]).rst = false ∧ (filter9 hello [0xab000000]).cmd = 0xab000000 :: [] ∧
      (0xab000000 : Word).extractLsb' 24 8 ∉ [0x01, 0x02, 0x03, 0x04] := by decide

/-! ### Witnesses: reset, the invariant, runs -/

theorem test_wit_reset :
    ({ filter9 hello [0x03000005] with rst := true }).rst = true ∧
      nextOf (step { filter9 hello [0x03000005] with rst := true }) = some heldInReset ∧
      nextOf (exec (.query 0 []) (filter9 hello [])) =
        some { filter9 hello [] with rsp := [0x04000200, 0x00000000] } := by decide

theorem test_wit_invariant :
    (filter9 hello [0x03000000]).Inv ∧ ∃ t, step (filter9 hello [0x03000000]) = .next t :=
  ⟨test_filter9_inv _, _, of_nextOf test_step_add_empty⟩

theorem test_wit_stream :
    (∀ i ∈ [Instr.config 3 0 64, .add 0 helloBytes, .hash 1 0 [], .query 0 worldBytes], i.WellFormed) ∧
      (blank []).rst = false := by decide

/-- `PortTimingIsInvisible`: half a command, a step, the other half, a step. -/
theorem test_wit_port_timing :
    ∃ t u : State, Host.Core.run Sys2Proof.core 1 (sendWords [0x02000001, 0x00000000] (blank [])) = .next t ∧
      Host.Core.run Sys2Proof.core 1 (sendWords [0x00000001] t) = .next u ∧ decode u.cmd = .waiting :=
  ⟨blank [0x02000001, 0x00000000], { blank [] with rsp := [0x02000000, 0x00000000] },
    of_nextOf (α := State) (by decide), of_nextOf (α := State) (by decide), by decide⟩

theorem test_wit_responses :
    ∃ t : State, runCommands [.query 0 [], .config 3 0 64] (blank []) = .next t :=
  ⟨{ filter9 [] [] with rsp := [0x04000003, 0x00000000, 0x01000200, 0x00000009] }, of_nextOf (by decide)⟩

/-! ### Witnesses: arithmetic, the hash, the indexer, the bit array -/

/-- `ArithmeticPrimitives`: a shift of 31, a divisor of 1, and a remainder congruent to a negative number (R123). -/
theorem test_wit_arithmetic :
    31 ≤ 31 ∧ 1 ≤ 1 ∧ 8 < 9 ∧ ((9 : Nat) : Int) ∣ (-1) - (8 : Nat) ∧ emod (-1) 9 = 8 := by decide

/-- `MixAndFinalisation`: chunk words with bit 31 of `k1` clear and set, at the ends of bits [31:8]. -/
theorem test_wit_mix :
    (0x7fffffff : Word).getLsbD 31 = false ∧ (0xae938b75 : Word).getLsbD 31 = true ∧ 8 ≤ 8 ∧ 31 < 32 := by decide

/-- `HashBit31IsClear`: both ends of bits [31:17]. -/
theorem test_wit_bit31 : 17 ≤ 17 ∧ 17 < 32 ∧ 17 ≤ 31 ∧ 31 < 32 := by decide

theorem test_wit_byte_helpers : enc32 0x64636261 = [0x61, 0x62, 0x63, 0x64] := by decide

/-- `ChainReseeds`: the chain of "hello" (F1), and the empty payload, whose hash equals its own seed. -/
theorem test_wit_chain :
    (chain helloBytes 3)[1]? = some 0x36f121a1 ∧ 1 ≤ 3 ∧ 1 + 1 < 3 ∧
      (chain [] 3)[0]? = some 0 ∧ hash32 [] 0 = 0 := by decide

/-- `BucketIndexIsFlooredRemainder`, `HashIndexIsUnsignedRemainder`, `PairDeterminesHashResidue`: the least modulus,
and the negative value of R123. -/
theorem test_wit_index :
    1 ≤ 1 ∧ 1 % 2 = 1 ∧ 8 < 9 ∧ ((9 : Nat) : Int) ∣ (0xffffffff : Word).toInt - (8 : Nat) ∧
      bucketIndex 0xffffffff 9 = 8 := by decide

/-- `BucketAccess`: the last bucket and the first that does not exist. -/
theorem test_wit_bucket :
    (filter9 hello []).bits.wf ∧ 8 < (filter9 hello []).size ∧ (filter9 hello []).size ≤ 9 := by decide

/-- `SetBitThenTestBit`: bit 7 of the last bucket, and another pair. -/
theorem test_wit_set_bit :
    (filter9 hello []).bits.wf ∧ 8 < (filter9 hello []).size ∧ 7 ≤ 7 ∧ (8, 0) ≠ (8, 7) := by decide

theorem test_wit_set_bit_twice :
    (filter9 hello []).bits.wf ∧ 6 ≤ 7 ∧ testBit (filter9 hello []) 5 6 = .ok true := by
  refine ⟨by decide, by decide, rfl⟩

/-! ### Witnesses: the commands -/

/-- `ConfigConstructsFilter`, `CapacityIsRefusedNotClamped`: each clause at the two sizes where they meet, and a set
bit that a `CONFIG` clears. -/
theorem test_wit_config :
    (1 : BitVec 16) ≠ 0 ∧ Config.maxBuckets < normSize 65536 ∧ normSize 65535 ≤ Config.maxBuckets ∧
      Config.LegalMaxBuckets 1 ∧ Config.LegalMaxBuckets 536870911 ∧ 1 < normSize 16 ∧ normSize 15 ≤ 1 := by decide

theorem test_wit_config_clears :
    (filter9 hello []).bits.wf ∧ (filter9 hello []).bitSet 5 6 = true ∧
      ∃ t : State, exec (.config 3 0 64) (filter9 hello []) = .next t ∧ t.bitSet 5 6 = false :=
  ⟨by decide, by decide, { filter9 [] [] with rsp := [0x01000200, 0x00000009] }, of_nextOf (by decide), by decide⟩

/-- `SizeIsOddAfterConfig`, `ConfigFrame`: a constructing and a refused `CONFIG`, each with a next state. -/
theorem test_wit_config_frame :
    constructs (.config 3 0 64) = true ∧ constructs (.config 3 1 64) = false ∧
      nextOf (exec (.config 3 0 64) (blank [])) = some { filter9 [] [] with rsp := [0x01000200, 0x00000009] } ∧
      nextOf (exec (.config 3 1 64) (blank [])) = some { blank [] with rsp := [0x01000002, 0x00000000] } ∧
      nextOf (runCommands [.add 0 []] (filter9 [] [])) =
        some { filter9 [(0, 0x01)] [] with rsp := [0x03000200, 0x00000000] } ∧ 9 ≤ 9 := by decide

/-- `HashAnswersHash`, `AddSetsIndexBits`, `QueryTestsIndexBits`, `AddRunsItsRounds`, `QueryEarlyExitChangesNoValue`:
a must-be-zero field that is not 0, an unconfigured block, and a filter. -/
theorem test_wit_commands :
    (1 : BitVec 8) ≠ 0 ∧ (blank []).configured = false ∧ (filter9 hello []).configured = true ∧
      (filter9 hello []).bits.wf ∧ 8 < (filter9 hello []).size ∧ 7 ≤ 7 ∧ 1 ≤ (filter9 hello []).size := by decide

/-- `AddFrame`: a bucket outside the indices of "hello". -/
theorem test_wit_add_frame :
    (filter9 hello []).bits.wf ∧ 8 ∉ (chain helloBytes 3).map (fun h => bucketIndex h 9) ∧
      nextOf (exec (.add 0 helloBytes) (filter9 hello [])) =
        some { filter9 hello [] with rsp := [0x03000200, 0x00000000] } := by decide

theorem test_wit_hash_query_frame :
    (∃ t, exec (.hash 0 1 []) (filter9 hello []) = .next t) ∧ ∃ t, exec (.query 0 []) (filter9 hello []) = .next t :=
  ⟨⟨{ filter9 hello [] with rsp := [0x02000200, 0x5bd15e36] }, of_nextOf (by decide)⟩,
    ⟨{ filter9 hello [] with rsp := [0x04000200, 0x00000000] }, of_nextOf (by decide)⟩⟩

theorem test_wit_zero_rounds :
    normSize 0 ≤ Config.maxBuckets ∧ ({ filter9 [] [] with k := 0 }).configured = true ∧
      ({ filter9 [] [] with k := 0 }).k = 0 := by decide

/-! ### Witnesses: responses, refusals, laws -/

/-- `ResponseFormat`: a hit and a refusal. -/
theorem test_wit_response :
    nextOf (exec (.query 0 helloBytes) (filter9 hello [])) =
        some { filter9 hello [] with rsp := [0x04000300, 0x00000000] } ∧
      errorOf (.query 0 helloBytes) (filter9 hello []) = 0 ∧ errorOf (.query 0 []) (blank []) ≠ 0 := by decide

/-- `RefusedCommandChangesNothing`: a command refused whole (Q14) and a reserved opcode (Q6). -/
theorem test_wit_refused :
    nextOf (step (filter9 hello [0x04ff0005, 0x6c6c6568, 0x0000006f])) =
        some { filter9 hello [] with rsp := [0x04000202, 0x00000000] } ∧
      (0x04000202 : Word).extractLsb' 0 8 ≠ 0 ∧
      nextOf (step (blank [0xffffffff])) = some { blank [] with rsp := [0xff000001, 0x00000000] } ∧
      (0xff000001 : Word).extractLsb' 0 8 ≠ 0 := by decide

/-- `ErrorCodesAndPriority`: each code of R172, `E_FIELD` where another would also apply (Q8, Q10). -/
theorem test_wit_errors :
    fieldOk (.add 1 [0x61]) = false ∧ fieldOk (.config 3 1 0x00010000) = false ∧
      nextOf (exec (.add 1 [0x61]) (blank [])) = some { blank [] with rsp := [0x03000002, 0x00000000] } ∧
      nextOf (exec (.add 0 [0x61]) (blank [])) = some { blank [] with rsp := [0x03000003, 0x00000000] } ∧
      nextOf (exec (.config 1 0 0x00010000) (blank [])) = some { blank [] with rsp := [0x01000004, 0x00000000] } ∧
      nextOf (exec (.hash 0 0 []) (blank [])) = some { blank [] with rsp := [0x02000000, 0x00000000] } ∧
      nextOf (step (blank [0x05001234])) = some { blank [] with rsp := [0x05000001, 0x00000000] } := by decide

/-- `NoFalseNegatives`, `AddsCommute`, `AddsLeaveTheUnion`: a filter and commands that construct none. -/
theorem test_wit_laws :
    (filter9 hello []).Inv ∧ (filter9 hello []).configured = true ∧
      (∀ i ∈ [Instr.add 0 worldBytes, .hash 0 0 [], .config 0 1 0, .query 0 []], constructs i = false) ∧
      8 < (filter9 hello []).size ∧ (∀ B, B ∈ [helloBytes, worldBytes] ↔ B ∈ [worldBytes, helloBytes, worldBytes]) ∧
      ∃ u, runCommands ([worldBytes, helloBytes, worldBytes].map (Instr.add 0)) (filter9 hello []) = .next u :=
  ⟨test_filter9_inv _, by decide, by decide, by decide, by simp,
    { filter9 [(0, 0x22), (1, 0x80), (3, 0x04), (5, 0x40), (6, 0x20)] [] with
      rsp := [0x03000200, 0, 0x03000200, 0, 0x03000200, 0] }, of_nextOf (by decide)⟩

/-- `SetBitsStaySet`, `ConfiguredFlagLife`, `KAndSizeFixedBetweenConfigs`: a step that sets a bit and constructs no
filter, and one that constructs one. -/
theorem test_wit_bits_stay :
    (filter9 hello [0x03000000]).bits.wf ∧ (filter9 hello [0x03000000]).rst = false ∧
      decode (filter9 hello [0x03000000]).cmd = .command (.add 0 []) [] ∧ constructs (.add 0 []) = false ∧
      (filter9 hello [0x03000000]).bitSet 0 1 = true ∧
      (∃ t, step (filter9 hello [0x03000000]) = .next t) ∧
      decode (blank [0x01030000, 0x00000040]).cmd = .command (.config 3 0 64) [] ∧
      ∃ t, step (blank [0x01030000, 0x00000040]) = .next t :=
  ⟨by decide, by decide, by decide, by decide, by decide, ⟨_, of_nextOf test_step_add_empty⟩, by decide,
    ⟨_, of_nextOf test_step_config⟩⟩

theorem test_wit_idempotent :
    (filter9 hello []).bits.wf ∧ ∃ t u, exec (.add 0 []) (filter9 hello []) = .next t ∧ exec (.add 0 []) t = .next u :=
  ⟨by decide, { filter9 [(0, 0x23), (5, 0x40)] [] with rsp := [0x03000200, 0] },
    { filter9 [(0, 0x23), (5, 0x40)] [] with rsp := [0x03000200, 0, 0x03000200, 0] }, of_nextOf (by decide),
    of_nextOf (by decide)⟩

theorem test_wit_fixed :
    (∀ i ∈ [Instr.add 0 [], .config 0 0 0xffffffff], constructs i = false) ∧
      ∃ t, runCommands [.add 0 [], .config 0 0 0xffffffff] (filter9 hello []) = .next t :=
  ⟨by decide, { filter9 [(0, 0x23), (5, 0x40)] [] with rsp := [0x03000200, 0, 0x01000204, 0] },
    of_nextOf (by decide)⟩

/-- `UnconfiguredStateIsUnobservable`: two blocks that differ in all that reset leaves unspecified. -/
theorem test_wit_unconfigured :
    (blank [0x04000000]).configured = false ∧ ({ filter9 hello [0x04000000] with configured := false }).cmd =
        (blank [0x04000000]).cmd ∧
      ({ filter9 hello [0x04000000] with configured := false }).rsp = (blank [0x04000000]).rsp ∧
      (blank [0x04000000]).rst = false ∧
      ∃ t, Host.Core.run Sys2Proof.core 1 (blank [0x04000000]) = .next t :=
  ⟨by decide, by decide, by decide, by decide, { blank [] with rsp := [0x04000003, 0x00000000] },
    of_nextOf (α := State) (by decide)⟩

/-! ### The result of a run (R210), with the vectors Z16, F1, Q4 and T2 -/

/-- A filter built and used, then a reset, after which nothing of it is left, and a refused header. -/
def runT2 : List RunItem :=
  [.command (.config 3 0 64), .command (.add 0 helloBytes), .reset, .command (.query 0 helloBytes), .reserved 0]

theorem test_run_with_reset :
    nextOf (runItems runT2 State.reset) =
      some ⟨[(0x01000200, 9), (0x03000200, 0), (0x04000003, 0), (0x00000001, 0)], ⟨false, 0, 0, []⟩⟩ := by decide

/-- Responses that a reset finds on the port are dropped, and those taken before it are not (R202). -/
theorem test_taken_before_reset :
    nextOf (runTaken [.host (.send [0x02000000, 0, 0x04000000]), .block, .host .take, .host .take, .block,
        .host .assertReset, .host .releaseReset, .host .take] State.reset) =
      some ([0x02000000, 0], State.reset) := by decide

/-- `RunResultIsResponsesAndFinalState`: a run of one command, and a run cut by a reset. -/
theorem test_wit_run :
    State.reset.Inv ∧
      ∃ r, runItems ([.command (.config 3 0 64)] ++ .reset :: [.command (.add 0 [])]) State.reset = .next r :=
  ⟨test_blank_inv [], ⟨[(0x01000200, 9), (0x03000003, 0)], ⟨false, 0, 0, []⟩⟩, of_nextOf (by decide)⟩

/-- `PortsShowTheRunsResult`: items of each kind, from the state after reset. -/
theorem test_wit_ports :
    (∀ x ∈ runT2, x.wellFormed) ∧ State.reset.Inv ∧ State.reset.rst = false ∧ State.reset.cmd = [] ∧
      State.reset.rsp = [] := by
  refine ⟨?_, test_blank_inv [], rfl, rfl, rfl⟩
  intro x hx
  simp only [runT2, List.mem_cons, List.not_mem_nil, or_false] at hx
  rcases hx with rfl | rfl | rfl | rfl | rfl <;> simp only [RunItem.wellFormed] <;> decide

end Sys2Proof.Tests
end

