-- ==== Sys2Proof/Proofs/Arithmetic.lean ====
section
/-!
PROOFS. The arithmetic primitives of R10 as functions on integers and on bits: one lemma per primitive, and the
obligation `ArithmeticPrimitives` from them.
-/

namespace Sys2Proof.Proofs
open Sys2Proof.Machine

/-! ### Words -/

theorem mul32_toNat (a b : Word) : (mul32 a b).toNat = a.toNat * b.toNat % 2 ^ 32 := by
  rw [mul32, BitVec.toNat_mul, Nat.mul_comm]

/-- The signed readings give the same product (R10): `BitVec.ofInt` is a ring map that undoes `toInt`. -/
theorem mul32_eq_ofInt (a b : Word) : mul32 a b = BitVec.ofInt 32 (a.toInt * b.toInt) := by
  rw [BitVec.ofInt_mul, BitVec.ofInt_toInt, BitVec.ofInt_toInt, mul32, BitVec.mul_comm]

theorem xor32_getLsbD (a b : Word) (i : Nat) : (xor32 a b).getLsbD i = (a.getLsbD i ^^ b.getLsbD i) :=
  BitVec.getLsbD_xor

theorem or8_getLsbD (a b : Byte) (i : Nat) : (or8 a b).getLsbD i = (a.getLsbD i || b.getLsbD i) :=
  BitVec.getLsbD_or

/-- The divisor is not negative, so the floored quotient is the one of Lean's shift of an integer. -/
theorem asr32_toInt (a : Word) (s : Nat) : (asr32 a s).toInt = a.toInt.fdiv (2 ^ s) := by
  have hpow : (0 : Int) ≤ 2 ^ s := by positivity
  rw [asr32, BitVec.toInt_sshiftRight, Int.shiftRight_eq_div_pow, Int.fdiv_eq_ediv_of_nonneg _ hpow]
  norm_cast

theorem asr32_getLsbD (a : Word) {s i : Nat} (hs : s ≤ 31) (hi : i < 32) :
    (asr32 a s).getLsbD i = if i ≤ 31 - s then a.getLsbD (i + s) else a.getLsbD 31 := by
  have hrange : s + i < 32 ↔ i ≤ 31 - s := by omega
  have htop : a.msb = a.getLsbD 31 := BitVec.msb_eq_getLsbD_last a
  rw [asr32, BitVec.getLsbD_sshiftRight, htop, Nat.add_comm i s]
  simp only [hrange, show ¬ 32 ≤ i by omega, decide_false, Bool.not_false, Bool.true_and]

theorem shl32_toNat (a : Word) (s : Nat) : (shl32 a s).toNat = a.toNat * 2 ^ s % 2 ^ 32 := by
  rw [shl32, BitVec.toNat_shiftLeft, Nat.shiftLeft_eq]

/-! ### Integers -/

theorem emod_eq_sub_mul_fdiv (z : Int) {n : Nat} (hn : 1 ≤ n) : (emod z n : Int) = z - n * z.fdiv n := by
  rw [emod_cast z hn, Int.emod_def, Int.fdiv_eq_ediv_of_nonneg z (Int.natCast_nonneg n)]

/-- Congruent integers have one remainder, and a natural number below `n` is its own. -/
theorem eq_emod_of_dvd_sub {z : Int} {n r : Nat} (hr : r < n) (hdvd : (n : Int) ∣ z - r) : r = emod z n := by
  have hmod : (r : Int) % n = z % n := Int.modEq_iff_dvd.2 hdvd
  have hself : (r : Int) % n = r := Int.emod_eq_of_lt (Int.natCast_nonneg r) (by omega)
  rw [emod, ← hmod, hself, Int.toNat_natCast]

theorem mul_udiv_le (a n : Nat) : n * udiv a n ≤ a := Nat.mul_div_le a n

theorem lt_mul_udiv_add_one (a : Nat) {n : Nat} (hn : 1 ≤ n) : a < n * (udiv a n + 1) :=
  Nat.lt_mul_div_succ a hn

/-- Settles O19, from the lemmas on each primitive. -/
theorem arithmeticPrimitives : Obligations.ArithmeticPrimitives :=
  ⟨fun a b => ⟨mul32_toNat a b, mul32_eq_ofInt a b⟩,
    xor32_getLsbD,
    or8_getLsbD,
    fun a s hs => ⟨asr32_toInt a s, fun _ hi => asr32_getLsbD a hs hi⟩,
    shl32_toNat,
    fun z _ hn => ⟨emod_eq_sub_mul_fdiv z hn, emod_lt z hn, fun _ => eq_emod_of_dvd_sub⟩,
    fun a n hn => ⟨mul_udiv_le a n, lt_mul_udiv_add_one a hn⟩⟩

end Sys2Proof.Proofs
end

