-- ==== Sys2Proof/Proofs/FixedBetweenConfigs.lean ====
section
/-!
PROOFS. `K` and `SIZE` between one successful `CONFIG` and the next (R28): kept by one command, by one step and by a run
of commands, and the obligation `KAndSizeFixedBetweenConfigs` from them.
-/

namespace Sys2Proof.Proofs
open Sys2Proof.Machine

theorem constructs_config_of_le (k : BitVec 8) {rs : Word} (h : normSize rs ≤ Config.maxBuckets) :
    constructs (.config k 0 rs) = true := decide_eq_true ⟨rfl, h⟩

theorem exec_keeps_k_size {i : Instr} {s t : State} (hi : constructs i = false) (h : exec i s = .next t) :
    t.k = s.k ∧ t.size = s.size := by
  obtain ⟨u, e, m, d, rfl, -, -, -, hu⟩ := exec_next_inv h
  rw [respond_k, respond_size]
  obtain rfl | ⟨k, rs, rfl, hrs, -⟩ | ⟨p, -, -, hset⟩ := hu
  · exact ⟨rfl, rfl⟩
  · rw [constructs_config_of_le k hrs] at hi
    contradiction
  · rw [(setBits_ok_inv hset).1]
    exact ⟨rfl, rfl⟩

theorem step_keeps_k_size {s t : State} (hr : s.rst = false) (h : step s = .next t)
    (hc : ∀ i rest, decode s.cmd = .command i rest → constructs i = false) : t.k = s.k ∧ t.size = s.size := by
  obtain ⟨hheld, -⟩ | ⟨-, -, hs⟩ | ⟨opc, rest, -, -, hs⟩ | ⟨i, rest, -, hd, hs⟩ := step_cases s
  · rw [hr] at hheld
    contradiction
  · cases hs.symm.trans h
    exact ⟨rfl, rfl⟩
  · cases hs.symm.trans h
    exact ⟨refuseReserved_k opc rest s, refuseReserved_size opc rest s⟩
  · obtain ⟨hk, hsize⟩ := exec_keeps_k_size (hc i rest hd) (hs.symm.trans h)
    exact ⟨hk.trans (consume_k rest s), hsize.trans (consume_size rest s)⟩

theorem runCommands_keeps_k_size {is : List Instr} {s t : State} (hc : ∀ i ∈ is, constructs i = false)
    (h : runCommands is s = .next t) : t.k = s.k ∧ t.size = s.size := by
  induction is generalizing s with
  | nil =>
    cases h
    exact ⟨rfl, rfl⟩
  | cons i is ih =>
    obtain ⟨hi, his⟩ := List.forall_mem_cons.1 hc
    obtain ⟨u, hu, ht⟩ := runCommands_cons_inv h
    obtain ⟨hk, hsize⟩ := exec_keeps_k_size hi hu
    obtain ⟨hk', hsize'⟩ := ih his ht
    exact ⟨hk'.trans hk, hsize'.trans hsize⟩

/-- Settles O56, from what one step and what a run of commands keeps. -/
theorem kAndSizeFixedBetweenConfigs : Obligations.KAndSizeFixedBetweenConfigs :=
  ⟨fun _ _ => step_keeps_k_size, fun _ _ _ => runCommands_keeps_k_size⟩

end Sys2Proof.Proofs
end

