-- ==== Sys2Proof/Proofs/CommandFormat.lean ====
section
/-!
PROOFS. The header alone says which command a run of words is and how long it is (R63 to R66, R69, R71): `cmdlen` and
the decoder by opcode, one step by what stands at the front of the command port, and the obligations
`OpcodeSelectsCommand`, `ReservedOpcodeIsRefused` and `CommandLengthIsConsumed` from them.
-/

namespace Sys2Proof.Proofs
open Sys2Proof.Machine Sys2Proof.Claims

/-! ### The length of a command -/

theorem payloadWords_eq_ceilDiv (n : Nat) : payloadWords n = n ⌈/⌉ 4 := (Nat.ceilDiv_eq_add_pred_div n 4).symm

theorem cmdlen_of_config {hdr : Word} (h : hdrOpc hdr = opcConfig) : cmdlen hdr = 2 := if_pos h

theorem cmdlen_of_hash {hdr : Word} (h : hdrOpc hdr = opcHash) :
    cmdlen hdr = 2 + payloadWords (hdrLen hdr).toNat := by
  rw [cmdlen, h, if_neg (by decide), if_pos rfl]

theorem cmdlen_of_add_or_query {hdr : Word} (h : hdrOpc hdr = opcAdd ∨ hdrOpc hdr = opcQuery) :
    cmdlen hdr = 1 + payloadWords (hdrLen hdr).toNat := by
  have hne : hdrOpc hdr ≠ opcConfig ∧ hdrOpc hdr ≠ opcHash := by
    obtain h | h := h <;> rw [h] <;> decide
  rw [cmdlen, if_neg hne.1, if_neg hne.2, if_pos h]

theorem reserved_iff {opc : BitVec 8} :
    opc ∉ [opcConfig, opcHash, opcAdd, opcQuery] ↔
      opc ≠ opcConfig ∧ opc ≠ opcHash ∧ opc ≠ opcAdd ∧ opc ≠ opcQuery := by
  simp only [List.mem_cons, List.not_mem_nil, or_false, not_or, ne_eq]

theorem cmdlen_of_reserved {hdr : Word} (h : hdrOpc hdr ∉ [opcConfig, opcHash, opcAdd, opcQuery]) :
    cmdlen hdr = 1 := by
  obtain ⟨hconfig, hhash, hadd, hquery⟩ := reserved_iff.1 h
  rw [cmdlen, if_neg hconfig, if_neg hhash, if_neg (not_or.2 ⟨hadd, hquery⟩)]

/-- The longest command is a `HASH` with `LEN = 65535` (R71). -/
theorem cmdlen_le (hdr : Word) : cmdlen hdr ≤ 16386 := by
  have hlen : payloadWords (hdrLen hdr).toNat ≤ 16384 := by
    have := (hdrLen hdr).isLt
    rw [payloadWords]
    omega
  unfold cmdlen
  split_ifs <;> omega

/-! ### The decoder by opcode -/

theorem decode_of_whole {hdr : Word} {ops : List Word} (h : cmdlen hdr = ops.length + 1) (rest : List Word) :
    decode (hdr :: (ops ++ rest)) = decodeWhole hdr ops rest := by
  rw [decode_of_le (by rw [h, List.length_append]; omega), h, Nat.add_sub_cancel, List.take_left, List.drop_left]

theorem decode_config {hdr : Word} (h : hdrOpc hdr = opcConfig) (rs : Word) (rest : List Word) :
    decode (hdr :: rs :: rest) = .command (.config (hdrK hdr) (hdrLen hdr) rs) rest := by
  have hwhole := decode_of_whole (ops := [rs]) (cmdlen_of_config h) rest
  exact hwhole.trans (if_pos h)

theorem decode_hash {hdr : Word} (h : hdrOpc hdr = opcHash) (seed : Word) {pw : List Word}
    (hpw : pw.length = payloadWords (hdrLen hdr).toNat) (rest : List Word) :
    decode (hdr :: seed :: (pw ++ rest)) =
      .command (.hash (hdrK hdr) seed (unpackPayload (hdrLen hdr).toNat pw)) rest := by
  have hwhole := decode_of_whole (ops := seed :: pw)
    (by rw [cmdlen_of_hash h, List.length_cons]; omega) rest
  rw [← List.cons_append, hwhole, decodeWhole, h, if_neg (by decide), if_pos rfl, List.headD_cons, List.tail_cons]

theorem decode_add {hdr : Word} (h : hdrOpc hdr = opcAdd) {pw : List Word}
    (hpw : pw.length = payloadWords (hdrLen hdr).toNat) (rest : List Word) :
    decode (hdr :: (pw ++ rest)) = .command (.add (hdrK hdr) (unpackPayload (hdrLen hdr).toNat pw)) rest := by
  rw [decode_of_whole (by rw [cmdlen_of_add_or_query (.inl h)]; omega), decodeWhole, h, if_neg (by decide),
    if_neg (by decide), if_pos rfl]

theorem decode_query {hdr : Word} (h : hdrOpc hdr = opcQuery) {pw : List Word}
    (hpw : pw.length = payloadWords (hdrLen hdr).toNat) (rest : List Word) :
    decode (hdr :: (pw ++ rest)) = .command (.query (hdrK hdr) (unpackPayload (hdrLen hdr).toNat pw)) rest := by
  rw [decode_of_whole (by rw [cmdlen_of_add_or_query (.inr h)]; omega), decodeWhole, h, if_neg (by decide),
    if_neg (by decide), if_neg (by decide), if_pos rfl]

theorem decode_reserved {hdr : Word} (h : hdrOpc hdr ∉ [opcConfig, opcHash, opcAdd, opcQuery]) (rest : List Word) :
    decode (hdr :: rest) = .reserved (hdrOpc hdr) rest := by
  obtain ⟨hconfig, hhash, hadd, hquery⟩ := reserved_iff.1 h
  have hwhole := decode_of_whole (ops := []) (cmdlen_of_reserved h) rest
  rw [← List.nil_append rest, hwhole, decodeWhole, if_neg hconfig, if_neg hhash, if_neg hadd, if_neg hquery,
    List.nil_append]

/-- Settles O4, from the decoder's equation for each opcode. -/
theorem opcodeSelectsCommand : Obligations.OpcodeSelectsCommand := by
  intro hdr rest
  refine ⟨fun h rs => decode_config h rs rest, fun pw hpw => ?_, fun h => decode_reserved h rest⟩
  rw [← payloadWords_eq_ceilDiv] at hpw
  exact ⟨fun h seed => decode_hash h seed hpw rest, fun h => decode_add h hpw rest, fun h => decode_query h hpw rest⟩

/-! ### One step by what is decoded -/

theorem step_of_command {s : State} {i : Instr} {rest : List Word} (hr : s.rst = false)
    (hd : decode s.cmd = .command i rest) : step s = exec i (consume rest s) := by
  simp only [step, hr, fetch, hd, Bool.false_eq_true, if_false]

theorem step_of_reserved {s : State} {opc : BitVec 8} {rest : List Word} (hr : s.rst = false)
    (hd : decode s.cmd = .reserved opc rest) : step s = .next (refuseReserved opc rest s) := by
  simp only [step, hr, fetch, hd, Bool.false_eq_true, if_false]

/-- Settles O9: the step is the model's refusal of a reserved opcode, which is the rule's next state. -/
theorem reservedOpcodeIsRefused : Obligations.ReservedOpcodeIsRefused := by
  intro s hdr ws hr hcmd hres
  have hd : decode s.cmd = .reserved (hdrOpc hdr) ws := by rw [hcmd, decode_reserved hres]
  exact step_of_reserved hr hd

/-! ### The words a step consumes -/

theorem inv_consume {s : State} (h : s.Inv) (rest : List Word) : (consume rest s).Inv :=
  ⟨h.bits_wf, h.bits_below, h.unconfigured, h.size_legal⟩

theorem exec_keeps_cmd {i : Instr} {s t : State} (h : exec i s = .next t) : t.cmd = s.cmd := by
  obtain ⟨u, e, m, d, rfl, hcmd, -⟩ := exec_next_inv h
  rw [respond_cmd, hcmd]

/-- A command faults only at a bucket that does not exist, and with a filter there is at least one bucket (R126). -/
theorem exec_completes {s : State} (hs : s.Inv) (i : Instr) : ∃ t, exec i s = .next t := by
  have hsize : s.configured = true → 1 ≤ s.size := fun hc => (hs.size_legal hc).2.1
  cases i with
  | config k len rs => exact ⟨_, rfl⟩
  | hash k seed p =>
    by_cases hk : k = 0
    · exact ⟨_, by rw [hk]; exact execHash_ok seed p s⟩
    · exact ⟨_, execHash_field hk seed p s⟩
  | add k p =>
    by_cases hk : k = 0
    · rw [hk]
      cases hc : s.configured with
      | false => exact ⟨_, execAdd_noCfg p hc⟩
      | true =>
        obtain ⟨m, hm, -⟩ := execAdd_ok p hc (hsize hc)
        exact ⟨_, hm⟩
    · exact ⟨_, execAdd_field hk p s⟩
  | query k p =>
    by_cases hk : k = 0
    · rw [hk]
      cases hc : s.configured with
      | false => exact ⟨_, execQuery_noCfg p hc⟩
      | true => exact ⟨_, execQuery_ok p hc (hsize hc)⟩
    · exact ⟨_, execQuery_field hk p s⟩

/-- A whole command at the front of the port is decoded with exactly the words after its `cmdlen` left (R71). -/
theorem decode_drop_cmdlen {hdr : Word} {ws : List Word} (h : cmdlen hdr ≤ (hdr :: ws).length) :
    (∃ i, decode (hdr :: ws) = .command i ((hdr :: ws).drop (cmdlen hdr))) ∨
      decode (hdr :: ws) = .reserved (hdrOpc hdr) ((hdr :: ws).drop (cmdlen hdr)) := by
  rw [decode_of_le h, List.drop_cons (cmdlen_pos hdr)]
  obtain ⟨i, hi⟩ | hres := decodeWhole_rest hdr (ws.take (cmdlen hdr - 1))
  · exact .inl ⟨i, hi _⟩
  · exact .inr (hres _)

theorem step_consumes_cmdlen {s : State} {hdr : Word} {ws : List Word} (hs : s.Inv) (hr : s.rst = false)
    (hcmd : s.cmd = hdr :: ws) (hle : cmdlen hdr ≤ s.cmd.length) :
    ∃ t, step s = .next t ∧ t.cmd = s.cmd.drop (cmdlen hdr) := by
  have hdec := decode_drop_cmdlen (hcmd ▸ hle)
  rw [← hcmd] at hdec
  obtain ⟨i, hd⟩ | hd := hdec
  · obtain ⟨t, ht⟩ := exec_completes (inv_consume hs (s.cmd.drop (cmdlen hdr))) i
    exact ⟨t, (step_of_command hr hd).trans ht, (exec_keeps_cmd ht).trans (consume_cmd _ s)⟩
  · exact ⟨_, step_of_reserved hr hd, refuseReserved_cmd _ _ s⟩

/-- Settles O3, from `cmdlen` by opcode and from what one step takes off the port. -/
theorem commandLengthIsConsumed : Obligations.CommandLengthIsConsumed := by
  refine ⟨fun hdr => ?_, by decide, fun s hdr ws => step_consumes_cmdlen⟩
  simp only [← payloadWords_eq_ceilDiv]
  exact ⟨cmdlen_of_config, cmdlen_of_hash, cmdlen_of_add_or_query, cmdlen_of_reserved, cmdlen_le hdr⟩

end Sys2Proof.Proofs
end

