-- ==== Sys2Proof/Proofs/PayloadPacking.lean ====
section
/-!
PROOFS. The byte lanes of payload words (R67): lane `i mod 4` of word `i / 4` is byte `i` of the words' bytes, what
packing and unpacking put there, and the obligation `PayloadPackingAndPadding` from them.
-/

namespace Sys2Proof.Proofs
open Sys2Proof.Machine Sys2Proof.Claims

/-! ### Lanes -/

theorem getD_enc32 (w : Word) {j : Nat} (hj : j < 4) : (enc32 w).getD j 0 = w.extractLsb' (8 * j) 8 := by
  match j, hj with
  | 0, _ | 1, _ | 2, _ | 3, _ => rfl

/-- Beyond the last word both sides are 0. -/
theorem getD_flatMap_enc32 (ws : List Word) (i : Nat) :
    (ws.flatMap enc32).getD i 0 = (ws.getD (i / 4) 0).extractLsb' (8 * (i % 4)) 8 := by
  induction ws generalizing i with
  | nil => simp
  | cons w ws ih =>
    rw [List.flatMap_cons]
    by_cases hi : i < 4
    · rw [List.getD_append _ _ _ _ hi, getD_enc32 w hi, Nat.div_eq_of_lt hi, Nat.mod_eq_of_lt hi, List.getD_cons_zero]
    · rw [List.getD_append_right _ _ _ _ (Nat.le_of_not_lt hi), length_enc32, ih,
        show i / 4 = (i - 4) / 4 + 1 by omega, show i % 4 = (i - 4) % 4 by omega, List.getD_cons_succ]

/-! ### Packing and unpacking -/

/-- The lanes beyond the payload are 0, as `getD` answers them. -/
theorem packPayload_lane (B : List Byte) (i : Nat) :
    ((packPayload B).getD (i / 4) 0).extractLsb' (8 * (i % 4)) 8 = B.getD i 0 := by
  obtain ⟨z, hz⟩ := flatMap_enc32_packPayload B
  rw [← getD_flatMap_enc32, hz]
  by_cases hi : i < B.length
  · rw [List.getD_append _ _ _ _ hi]
  · have hle := Nat.le_of_not_lt hi
    rw [List.getD_append_right _ _ _ _ hle, List.getD_eq_default _ _ hle, List.getD_eq_getElem?_getD,
      List.getElem?_getD_replicate_default_eq]

theorem length_unpackPayload {n : Nat} {ws : List Word} (h : n ≤ 4 * ws.length) : (unpackPayload n ws).length = n := by
  rw [unpackPayload, List.length_take, length_flatMap_enc32, Nat.min_eq_left h]

theorem unpackPayload_lane {n i : Nat} {ws : List Word} (h : n ≤ 4 * ws.length) (hi : i < n) :
    (unpackPayload n ws)[i]? = some ((ws.getD (i / 4) 0).extractLsb' (8 * (i % 4)) 8) := by
  have hlt : i < (ws.flatMap enc32).length := by
    rw [length_flatMap_enc32]
    omega
  rw [unpackPayload, List.getElem?_take_of_lt hi, ← getD_flatMap_enc32, List.getD_eq_getElem _ _ hlt,
    List.getElem?_eq_getElem hlt]

/-- Padding lanes are not looked at (R67): the bytes below `n` are all that unpacking `n` bytes reads. -/
theorem unpackPayload_congr {n : Nat} {ws ws' : List Word} (h : n ≤ 4 * ws.length) (hlen : ws'.length = ws.length)
    (hlane : ∀ i, i < n →
      (ws.getD (i / 4) 0).extractLsb' (8 * (i % 4)) 8 = (ws'.getD (i / 4) 0).extractLsb' (8 * (i % 4)) 8) :
    unpackPayload n ws = unpackPayload n ws' := by
  have h' : n ≤ 4 * ws'.length := hlen ▸ h
  refine List.ext_getElem? fun i => ?_
  by_cases hi : i < n
  · rw [unpackPayload_lane h hi, unpackPayload_lane h' hi, hlane i hi]
  · have hge := Nat.le_of_not_lt hi
    rw [List.getElem?_eq_none ((length_unpackPayload h).trans_le hge),
      List.getElem?_eq_none ((length_unpackPayload h').trans_le hge)]

/-! ### Commands that differ in padding only -/

/-- A step sees of the command port what is decoded from it. -/
theorem step_setCmd_congr {c c' rest : List Word} {i : Instr} (h : decode c = .command i rest)
    (h' : decode c' = .command i rest) (s : State) : step { s with cmd := c } = step { s with cmd := c' } := by
  simp only [step, fetch, h, h', consume]

/-- Two payloads with the same bytes make the same command of any header and operand (R64 to R66). -/
theorem decode_payload_congr {hdr : Word} {operand pw pw' : List Word}
    (hopc : hdrOpc hdr ∈ [opcHash, opcAdd, opcQuery])
    (hop : operand.length = if hdrOpc hdr = opcHash then 1 else 0)
    (hpw : pw.length = payloadWords (hdrLen hdr).toNat) (hlen : pw'.length = pw.length)
    (hB : unpackPayload (hdrLen hdr).toNat pw = unpackPayload (hdrLen hdr).toNat pw') (rest : List Word) :
    ∃ i, decode (hdr :: (operand ++ pw ++ rest)) = .command i rest ∧
      decode (hdr :: (operand ++ pw' ++ rest)) = .command i rest := by
  have hpw' := hlen.trans hpw
  simp only [List.mem_cons, List.not_mem_nil, or_false] at hopc
  obtain h | h | h := hopc
  · rw [if_pos h] at hop
    obtain ⟨seed, rfl⟩ := List.length_eq_one_iff.1 hop
    exact ⟨_, decode_hash h seed hpw rest, hB ▸ decode_hash h seed hpw' rest⟩
  · rw [if_neg (by rw [h]; decide)] at hop
    obtain rfl := List.eq_nil_of_length_eq_zero hop
    exact ⟨_, decode_add h hpw rest, hB ▸ decode_add h hpw' rest⟩
  · rw [if_neg (by rw [h]; decide)] at hop
    obtain rfl := List.eq_nil_of_length_eq_zero hop
    exact ⟨_, decode_query h hpw rest, hB ▸ decode_query h hpw' rest⟩

/-- Settles O5: lanes of packed and of unpacked words, and one decoded command for both paddings. -/
theorem payloadPackingAndPadding : Obligations.PayloadPackingAndPadding := by
  refine ⟨fun B => ⟨?_, fun i _ => packPayload_lane B i⟩,
    fun n ws h => ⟨length_unpackPayload h, fun i => unpackPayload_lane h⟩, ?_⟩
  · rw [length_packPayload, payloadWords_eq_ceilDiv]
  · intro s hdr operand pw pw' rest hopc hop hpw hlen hlane
    rw [← payloadWords_eq_ceilDiv] at hpw
    have hfit : (hdrLen hdr).toNat ≤ 4 * pw.length := by
      simp only [hpw, hdrLen, payloadWords]
      omega
    obtain ⟨i, h, h'⟩ := decode_payload_congr hopc hop hpw hlen (unpackPayload_congr hfit hlen hlane) rest
    exact step_setCmd_congr h h' s

end Sys2Proof.Proofs
end

