-- ==== Sys2Proof/Proofs/ResponseFormat.lean ====
section
/-!
PROOFS. The response of every command (R68): the fields of `RSP0`, what a refused and what an executed command answers
(R98, R142, R144, R145, R171), and the obligation `ResponseFormat` from them.
-/

namespace Sys2Proof.Proofs
open Sys2Proof.Machine Sys2Proof.Claims

/-! ### The fields of `RSP0` -/

section
variable (opc : BitVec 8) (c m : Bool) (e : Err)

theorem rsp0_opc : (rsp0 opc c m e).extractLsb' 24 8 = opc := by
  rw [rsp0]
  iterate 4 rw [BitVec.extractLsb'_append_eq_of_le (by decide)]
  exact BitVec.extractLsb'_eq_self

theorem rsp0_zeros : (rsp0 opc c m e).extractLsb' 10 14 = 0 := by
  rw [rsp0]
  iterate 3 rw [BitVec.extractLsb'_append_eq_of_le (by decide)]
  exact BitVec.extractLsb'_append_eq_right

theorem rsp0_configured : (rsp0 opc c m e).getLsbD 9 = c := by
  simp only [rsp0, BitVec.getLsbD_append, BitVec.getLsbD_ofBool]
  rfl

theorem rsp0_match : (rsp0 opc c m e).getLsbD 8 = m := by
  simp only [rsp0, BitVec.getLsbD_append, BitVec.getLsbD_ofBool]
  rfl

theorem rsp0_err : (rsp0 opc c m e).extractLsb' 0 8 = e.code := BitVec.extractLsb'_append_eq_right

end

/-! ### The error code of a command -/

theorem errorOf_config (k : BitVec 8) (len : BitVec 16) (rs : Word) (s : State) :
    errorOf (.config k len rs) s =
      if len = 0 then if normSize rs ≤ Config.maxBuckets then 0x00 else 0x04 else 0x02 := by
  by_cases hlen : len = 0 <;> simp [errorOf, fieldOk, hlen]

theorem errorOf_hash (k : BitVec 8) (seed : Word) (p : List Byte) (s : State) :
    errorOf (.hash k seed p) s = if k = 0 then 0x00 else 0x02 := by
  by_cases hk : k = 0 <;> simp [errorOf, fieldOk, hk]

theorem errorOf_add (k : BitVec 8) (p : List Byte) (s : State) :
    errorOf (.add k p) s = if k = 0 then if s.configured then 0x00 else 0x03 else 0x02 := by
  by_cases hk : k = 0 <;> simp [errorOf, fieldOk, hk]

theorem errorOf_query (k : BitVec 8) (p : List Byte) (s : State) :
    errorOf (.query k p) s = if k = 0 then if s.configured then 0x00 else 0x03 else 0x02 := by
  by_cases hk : k = 0 <;> simp [errorOf, fieldOk, hk]

theorem errorOf_config_eq_zero_iff {k : BitVec 8} {len : BitVec 16} {rs : Word} {s : State} :
    errorOf (.config k len rs) s = 0 ↔ len = 0 ∧ normSize rs ≤ Config.maxBuckets := by
  simp [errorOf_config, ite_eq_iff]

theorem errorOf_hash_eq_zero_iff {k : BitVec 8} {seed : Word} {p : List Byte} {s : State} :
    errorOf (.hash k seed p) s = 0 ↔ k = 0 := by
  simp [errorOf_hash]

theorem errorOf_add_eq_zero_iff {k : BitVec 8} {p : List Byte} {s : State} :
    errorOf (.add k p) s = 0 ↔ k = 0 ∧ s.configured = true := by
  simp [errorOf_add, ite_eq_iff]

theorem errorOf_query_eq_zero_iff {k : BitVec 8} {p : List Byte} {s : State} :
    errorOf (.query k p) s = 0 ↔ k = 0 ∧ s.configured = true := by
  simp [errorOf_query, ite_eq_iff]

/-! ### Refused commands -/

/-- A command with an error code other than 0 is refused with it (R171, R177). -/
theorem exec_refused {i : Instr} {s : State} (h : errorOf i s ≠ 0) :
    ∃ e : Err, e.code = errorOf i s ∧ exec i s = .next (raise i.opc e s) := by
  cases i with
  | config k len rs =>
    rw [errorOf_config] at h ⊢
    split_ifs at h ⊢ with hlen hsize
    · exact absurd rfl h
    · subst hlen
      exact ⟨.capacity, rfl, execConfig_capacity k (Nat.lt_of_not_le hsize) s⟩
    · exact ⟨.field, rfl, execConfig_field hlen rs s⟩
  | hash k seed p =>
    rw [errorOf_hash] at h ⊢
    split_ifs at h ⊢ with hk
    · exact absurd rfl h
    · exact ⟨.field, rfl, execHash_field hk seed p s⟩
  | add k p =>
    rw [errorOf_add] at h ⊢
    split_ifs at h ⊢ with hk hc
    · exact absurd rfl h
    · subst hk
      exact ⟨.noCfg, rfl, execAdd_noCfg p (Bool.eq_false_iff.2 hc)⟩
    · exact ⟨.field, rfl, execAdd_field hk p s⟩
  | query k p =>
    rw [errorOf_query] at h ⊢
    split_ifs at h ⊢ with hk hc
    · exact absurd rfl h
    · subst hk
      exact ⟨.noCfg, rfl, execQuery_noCfg p (Bool.eq_false_iff.2 hc)⟩
    · exact ⟨.field, rfl, execQuery_field hk p s⟩

/-! ### Executed commands -/

/-- `MATCH` of an executed command (R145): every bit of a `QUERY`'s rounds is set. -/
def matchOf : Instr → State → Bool
  | .query _ p, s => (indices p s.k.toNat s.size).all fun q => s.bitSet q.1 q.2
  | .config _ _ _, _ => false
  | .hash _ _ _, _ => false
  | .add _ _, _ => false

/-- `DATA` of an executed command (R68): the new `SIZE`, the hash, or 0. -/
def dataOf : Instr → Word
  | .config _ _ rs => BitVec.ofNat 32 (normSize rs)
  | .hash _ seed p => hash32 p seed
  | .add _ _ => 0
  | .query _ _ => 0

theorem matchOf_eq_true_iff {i : Instr} {s : State} :
    matchOf i s = true ↔ ∃ k p, i = .query k p ∧ ∀ q ∈ indices p s.k.toNat s.size, s.bitSet q.1 q.2 = true := by
  cases i with
  | query k p => simp [matchOf]
  | config | hash | add => simp [matchOf]

/-- Where `testBits` meets no missing bucket it answers whether every bit is set, although it stops at the first that
is clear (R146). -/
theorem testBits_ok_inv {s : State} {ps : List (Nat × Nat)} {m : Bool} (h : testBits s ps = .ok m) :
    m = ps.all fun p => s.bitSet p.1 p.2 := by
  induction ps with
  | nil =>
    cases h
    rfl
  | cons p ps ih =>
    by_cases hp : p.1 < s.size
    · rw [testBits, testBit_of_lt hp] at h
      rw [List.all_cons]
      cases hb : s.bitSet p.1 p.2 with
      | false =>
        rw [hb] at h
        cases h
        rfl
      | true =>
        rw [hb] at h
        exact ih h
    · rw [testBits, testBit_of_ge (Nat.le_of_not_lt hp)] at h
      cases h

/-- A command with error code 0 that completes has answered its `MATCH` and `DATA`, and a `CONFIG` holds its size. -/
theorem exec_executed {i : Instr} {s t : State} (he : errorOf i s = 0) (h : exec i s = .next t) :
    ∃ u, t = respond i.opc .none (matchOf i s) (dataOf i) u ∧ u.rsp = s.rsp ∧
      ∀ k len rs, i = .config k len rs → u.size = normSize rs := by
  cases i with
  | config k len rs =>
    obtain ⟨rfl, hsize⟩ := errorOf_config_eq_zero_iff.1 he
    cases (execConfig_ok k hsize s).symm.trans h
    exact ⟨_, rfl, rfl, fun _ _ _ hi => by cases hi; rfl⟩
  | hash k seed p =>
    obtain rfl := errorOf_hash_eq_zero_iff.1 he
    cases (execHash_ok seed p s).symm.trans h
    exact ⟨s, rfl, rfl, fun _ _ _ hi => by cases hi⟩
  | add k p =>
    obtain ⟨rfl, hc⟩ := errorOf_add_eq_zero_iff.1 he
    obtain ⟨u, hu, rfl⟩ := orFault_next_inv ((execAdd_cfg p hc).symm.trans h)
    exact ⟨u, rfl, by rw [(setBits_ok_inv hu).1], fun _ _ _ hi => by cases hi⟩
  | query k p =>
    obtain ⟨rfl, hc⟩ := errorOf_query_eq_zero_iff.1 he
    obtain ⟨m, hm, rfl⟩ := orFault_next_inv ((execQuery_cfg p hc).symm.trans h)
    obtain rfl := testBits_ok_inv hm
    exact ⟨s, rfl, rfl, fun _ _ _ hi => by cases hi⟩

/-! ### The response -/

/-- Settles O48: a command's response is that of its refusal or of its execution, by its error code; a reserved opcode
gives the whole next state of R69. -/
theorem responseFormat : Obligations.ResponseFormat := by
  refine ⟨fun i s t h => ?_, fun s hdr ws hr hcmd hres => ⟨_, reservedOpcodeIsRefused s hdr ws hr hcmd hres, rfl⟩⟩
  by_cases he : errorOf i s = 0
  · obtain ⟨u, rfl, hrsp, hsize⟩ := exec_executed he h
    refine ⟨rsp0 i.opc u.configured (matchOf i s) .none, dataOf i, by rw [respond_rsp, hrsp], rsp0_opc ..,
      rsp0_zeros .., rsp0_configured .., (rsp0_err ..).trans he.symm, ?_, fun hne => absurd he hne, fun _ => ⟨?_, ?_, ?_⟩⟩
    · simp only [rsp0_match, matchOf_eq_true_iff, he, true_and]
    · rintro k len rs rfl
      rw [respond_size, hsize k len rs rfl, dataOf]
    · rintro k seed p rfl
      rfl
    · rintro k p (rfl | rfl) <;> rfl
  · obtain ⟨e, hcode, hraise⟩ := exec_refused he
    cases hraise.symm.trans h
    refine ⟨rsp0 i.opc s.configured false e, 0, raise_rsp .., rsp0_opc .., rsp0_zeros .., rsp0_configured ..,
      (rsp0_err ..).trans hcode, ?_, fun _ => rfl, fun h0 => absurd h0 he⟩
    simp only [rsp0_match, he, false_and, and_false, exists_false, Bool.false_eq_true]

end Sys2Proof.Proofs
end

