-- ==== Sys2Proof/Proofs/HashMixer.lean ====
section
/-!
PROOFS. The mixing hash (R92 to R98): the constant shift of the chunk mix bit by bit, the list-walking chunk loop and
tail against the ones by offset, the `HASH` command, and the obligations `MixAndFinalisation`, `HashFollowsOffsets` and
`HashAnswersHash` from them.
-/

namespace Sys2Proof.Proofs
open Sys2Proof.Machine Sys2Proof.Claims

/-! ### The arithmetic shift by 24 (R93, R101) -/

theorem asr32_24_low_byte (a : Word) : (asr32 a 24).extractLsb' 0 8 = a.extractLsb' 24 8 := by
  apply BitVec.eq_of_getLsbD_eq
  intro i hi
  rw [BitVec.getLsbD_extractLsb', BitVec.getLsbD_extractLsb', Nat.zero_add,
    asr32_getLsbD a (by decide) (by omega), if_pos (by omega), Nat.add_comm]

theorem asr32_24_getLsbD_high (a : Word) {i : Nat} (h8 : 8 ≤ i) (hi : i < 32) :
    (asr32 a 24).getLsbD i = a.getLsbD 31 := by
  rw [asr32_getLsbD a (by decide) hi, if_neg (by omega)]

theorem asr32_eq_ushiftRight {a : Word} (h : a.getLsbD 31 = false) (s : Nat) : asr32 a s = a >>> s :=
  BitVec.sshiftRight_eq_of_msb_false ((BitVec.msb_eq_getLsbD_last a).trans h)

theorem ushiftRight_24_getLsbD_high (a : Word) {i : Nat} (h8 : 8 ≤ i) : (a >>> 24).getLsbD i = false := by
  rw [BitVec.getLsbD_ushiftRight, BitVec.getLsbD_of_ge a _ (by omega)]

theorem asr32_24_ne_ushiftRight {a : Word} (h : a.getLsbD 31 = true) {i : Nat} (h8 : 8 ≤ i) (hi : i < 32) :
    (asr32 a 24).getLsbD i ≠ (a >>> 24).getLsbD i := by
  rw [asr32_24_getLsbD_high a h8 hi, h, ushiftRight_24_getLsbD_high a h8]
  decide

/-! ### Mix and finalisation (R93, R96) -/

theorem mixK_eq (k0 : Word) :
    mixK k0 = 0x5bd1e995#32 * ((0x5bd1e995#32 * k0) ^^^ (0x5bd1e995#32 * k0).sshiftRight 24) := rfl

theorem mixStep_eq (h k0 : Word) : mixStep h k0 = (0x5bd1e995#32 * h) ^^^ mixK k0 := rfl

theorem hashFin_eq_finAt (h : Word) : hashFin h = finAt h := rfl

/-- Settles O20: the mix and the finalisation are the spec's by unfolding; the two shifts are compared bit by bit. -/
theorem mixAndFinalisation : Obligations.MixAndFinalisation :=
  ⟨fun h k0 => ⟨mixK_eq k0, mixStep_eq h k0⟩,
    fun k1 => ⟨asr32_24_low_byte k1, fun _ => asr32_24_getLsbD_high k1, fun h => asr32_eq_ushiftRight h 24,
      fun h _ => asr32_24_ne_ushiftRight h⟩,
    hashFin_eq_finAt⟩

/-! ### The chunks by offset (R92, R94) -/

theorem byteAt_drop (B : List Byte) (t i : Nat) : byteAt (B.drop t) i = byteAt B (t + i) := by
  simp only [byteAt, List.getD_eq_getElem?_getD, List.getElem?_drop]

theorem wordAt_drop (B : List Byte) (t i : Nat) : wordAt (B.drop t) i = wordAt B (t + i) := by
  simp only [wordAt, byteAt_drop, Nat.add_assoc]

theorem zext32_getLsbD (b : Byte) {i : Nat} (hi : i < 32) : (zext32 b).getLsbD i = b.getLsbD i := by
  rw [zext32, BitVec.getLsbD_setWidth, decide_eq_true hi, Bool.true_and]

theorem shl32_zext32_getLsbD (b : Byte) (n : Nat) {i : Nat} (hi : i < 32) :
    (shl32 (zext32 b) n).getLsbD i = if n ≤ i then b.getLsbD (i - n) else false := by
  have hlt : i - n < 32 := by omega
  rw [shl32, BitVec.getLsbD_shiftLeft, zext32_getLsbD b hlt]
  by_cases hn : n ≤ i
  · simp [hi, hn]
  · simp [hn, Nat.lt_of_not_le hn]

/-- The shifts of R92 put each byte into a lane of its own, so in each lane the OR has the bits of one byte (R102). -/
theorem wordAt_cons_four (b0 b1 b2 b3 : Byte) (t : List Byte) :
    wordAt (b0 :: b1 :: b2 :: b3 :: t) 0 = dec32 b0 b1 b2 b3 := by
  apply BitVec.eq_of_getLsbD_eq
  intro i hi
  simp only [wordAt, byteAt, List.getD_cons_zero, List.getD_cons_succ, Nat.zero_add, dec32, BitVec.getLsbD_or,
    zext32_getLsbD _ hi, shl32_zext32_getLsbD _ _ hi, BitVec.getLsbD_append]
  have hlane : i < 8 ∨ (8 ≤ i ∧ i < 16) ∨ (16 ≤ i ∧ i < 24) ∨ 24 ≤ i := by omega
  obtain h | h | h | h := hlane <;>
    simp (disch := omega) only [if_pos, if_neg, BitVec.getLsbD_of_ge, Bool.or_false, Bool.false_or, Nat.sub_sub,
      Nat.reduceAdd]

/-- The first chunk of the loop by offset is folded in first. -/
theorem chunksAt_cons_four (b0 b1 b2 b3 : Byte) (t : List Byte) (h : Word) :
    chunksAt (b0 :: b1 :: b2 :: b3 :: t) h = chunksAt t (mixStep h (dec32 b0 b1 b2 b3)) := by
  have hlen : (b0 :: b1 :: b2 :: b3 :: t).length / 4 = t.length / 4 + 1 := by simp only [List.length_cons]; omega
  have hnext (j : Nat) : wordAt (b0 :: b1 :: b2 :: b3 :: t) (4 * (j + 1)) = wordAt t (4 * j) := by
    rw [Nat.mul_succ, Nat.add_comm]
    exact (wordAt_drop (b0 :: b1 :: b2 :: b3 :: t) 4 (4 * j)).symm
  simp only [chunksAt, hlen, List.range_succ_eq_map, List.foldl_cons, List.foldl_map, Nat.mul_zero, wordAt_cons_four,
    Nat.succ_eq_add_one, hnext]

theorem hashChunks_eq_chunksAt (h : Word) : ∀ B : List Byte, (hashChunks h B).1 = chunksAt B h
  | b0 :: b1 :: b2 :: b3 :: t => by rw [hashChunks_four, hashChunks_eq_chunksAt _ t, chunksAt_cons_four]
  | [] | [_] | [_, _] | [_, _, _] => by simp [hashChunks, chunksAt]

/-! ### The tail by offset (R95) -/

theorem tailAt_drop (B : List Byte) (t r : Nat) (h : Word) : tailAt (B.drop t) 0 r h = tailAt B t r h := by
  simp only [tailAt, byteAt_drop, Nat.zero_add, Nat.add_zero]

theorem hashTail_eq_tailAt (h : Word) {T : List Byte} (hT : T.length < 4) : hashTail h T = tailAt T 0 T.length h := by
  match T with
  | [] | [_] | [_, _] | [_, _, _] => rfl
  | _ :: _ :: _ :: _ :: _ => simp at hT; omega

/-! ### The whole hash (R97) -/

theorem hash32_eq_hashAt (B : List Byte) (seed : Word) : hash32 B seed = hashAt B seed := by
  have hlt : (B.drop (4 * (B.length / 4))).length < 4 := by rw [List.length_drop]; omega
  simp only [hash32, hashAt, hashInit, xor32, hashChunks_tail, hashChunks_eq_chunksAt, hashTail_eq_tailAt _ hlt,
    tailAt_drop, List.length_drop, hashFin_eq_finAt]

/-- Settles O21: chunk loop, tail and finalisation each agree with their form by offset. -/
theorem hashFollowsOffsets : Obligations.HashFollowsOffsets :=
  ⟨hash32_eq_hashAt, fun b0 b1 b2 b3 => wordAt_cons_four b0 b1 b2 b3 []⟩

/-! ### The command (R98) -/

theorem exec_hash (k : BitVec 8) (seed : Word) (B : List Byte) (s : State) :
    exec (.hash k seed B) s = execHash k seed B s := rfl

theorem respond_eq_answer (opc : BitVec 8) (e : Err) (m : Bool) (d : Word) (s : State) :
    respond opc e m d s = { s with rsp := s.rsp ++ [answer opc s.configured m e.code, d] } := rfl

/-- Settles O40, from the two outcomes of `execHash`. -/
theorem hashAnswersHash : Obligations.HashAnswersHash := by
  intro k seed B s
  refine ⟨fun hk => ?_, ?_, (hash32_nil seed).trans (hashFin_eq_finAt seed)⟩
  · rw [exec_hash, execHash_field hk, raise, respond_eq_answer, opcHash, Err.code]
  · rintro rfl
    rw [exec_hash, execHash_ok, respond_eq_answer, opcHash, Err.code]

end Sys2Proof.Proofs
end

