-- ==== Sys2Proof/Proofs/BucketIndex.lean ====
section
/-!
PROOFS. The bucket index of R121 and R123 as the Euclidean remainder of the signed hash, and the obligation
`BucketIndexIsFlooredRemainder` from the laws of `emod`.
-/

namespace Sys2Proof.Proofs
open Sys2Proof.Machine

theorem bucketIndex_eq_emod (h : Word) (n : Nat) : bucketIndex h n = emod h.toInt n := rfl

theorem bucketIndex_eq_sub_mul_fdiv (h : Word) {n : Nat} (hn : 1 ≤ n) :
    (bucketIndex h n : Int) = h.toInt - n * h.toInt.fdiv n := by
  rw [bucketIndex_eq_emod, emod_eq_sub_mul_fdiv h.toInt hn]

/-- Of the natural numbers below `SIZE`, only the bucket index is congruent to the signed hash. -/
theorem eq_bucketIndex_of_dvd_sub {h : Word} {n r : Nat} (hr : r < n) (hdvd : (n : Int) ∣ h.toInt - r) :
    r = bucketIndex h n := by
  rw [bucketIndex_eq_emod, ← eq_emod_of_dvd_sub hr hdvd]

/-- Settles O28: the value, the range and the uniqueness of the remainder (R121). -/
theorem bucketIndexIsFlooredRemainder : Obligations.BucketIndexIsFlooredRemainder :=
  fun h _ hn => ⟨bucketIndex_eq_sub_mul_fdiv h hn, bucketIndex_lt h hn, fun _ => eq_bucketIndex_of_dvd_sub⟩

end Sys2Proof.Proofs
end

