-- ==== Sys2Proof/Proofs/SetBit.lean ====
section
/-!
PROOFS. `set_bit` and `test_bit` (R140, R152): what a bucket and its bits read after a bit is set, and the obligation
`SetBitThenTestBit` from them.
-/

namespace Sys2Proof.Proofs
open Sys2Proof.Machine

theorem bitSet_eq_getLsbD (s : State) (a b : Nat) : s.bitSet a b = (s.bits.read a).getLsbD b := bucketBit_eq _ b

/-- The form of R152: the bucket is divided as a natural number, so no sign enters. -/
theorem bitSet_eq_div_mod (s : State) (a b : Nat) :
    s.bitSet a b = decide ((s.bits.read a).toNat / 2 ^ b % 2 = 1) := by
  rw [State.bitSet, bucketBit, Nat.shiftRight_eq_div_pow]

theorem memRead_withBits {s : State} {a : Nat} (ha : a < s.size) (m : Memory) :
    memRead { s with bits := m } a = .ok (m.read a) := if_pos ha

theorem testBit_withBits {s : State} {a : Nat} (ha : a < s.size) (m : Memory) (b : Nat) :
    testBit { s with bits := m } a b = .ok (bucketBit (m.read a) b) := by
  rw [testBit, memRead_withBits ha]

theorem memRead_write_same {s : State} (hw : s.bits.wf) {a : Nat} (ha : a < s.size) (v : Byte) :
    memRead { s with bits := s.bits.write a v } a = .ok v := by
  rw [memRead_withBits ha, Memory.read_write hw, if_pos rfl]

/-- After `set_bit(a, b)` every bit that exists reads as before, but for bit `b` of bucket `a`, which is set. -/
theorem testBit_write_mask {s : State} (hw : s.bits.wf) (a b : Nat) {x y : Nat} (hx : x < s.size) (hy : y ≤ 7) :
    testBit { s with bits := s.bits.write a (or8 (s.bits.read a) (mask b)) } x y =
      .ok (s.bitSet x y || decide (x = a ∧ y = b)) := by
  rw [testBit_withBits hx, bitSet_write_mask hw a b x y (by omega)]

/-- Settles O33, from the two forms of a bit and what is read after `set_bit`. -/
theorem setBitThenTestBit : Obligations.SetBitThenTestBit := by
  refine ⟨by decide, fun s a b hw ha hb => ⟨?_, ?_, _, setBit_of_lt ha b, rfl, ?_, ?_, ?_⟩⟩
  · rw [testBit_of_lt ha, bitSet_eq_div_mod]
  · rw [testBit_of_lt ha, bitSet_eq_getLsbD]
  · exact memRead_write_same hw ha _
  · rw [testBit_write_mask hw a b ha hb, decide_eq_true ⟨rfl, rfl⟩, Bool.or_true]
  · intro x y hx hy hne
    have hother : ¬ (x = a ∧ y = b) := fun h => hne (Prod.ext h.1 h.2)
    rw [testBit_write_mask hw a b hx hy, testBit_of_lt hx, decide_eq_false hother, Bool.or_false]

end Sys2Proof.Proofs
end

