-- ==== Sys2Proof/Proofs/ConfigFilter.lean ====
section
/-!
PROOFS. `CONFIG` (R141, R142, R153): the size normalisation in its two forms, one lemma for every refused command, that
only a constructing `CONFIG` clears a bit, and the obligations `SizeNormalisation` and `ConfigConstructsFilter` from
them.
-/

namespace Sys2Proof.Proofs
open Sys2Proof.Machine Sys2Proof.Claims

/-! ### The size rule (R141) -/

theorem or_one_eq_ite (n : Nat) : n ||| 1 = if n % 2 = 0 then n + 1 else n := by
  have hdiv : (n ||| 1) / 2 = n / 2 := by rw [Nat.or_div_two, Nat.or_zero]
  have hmod : (n ||| 1) % 2 = 1 := by rw [Nat.or_mod_two_eq_one]; exact .inr rfl
  split <;> omega

theorem clamp_eq_max (n : Nat) : (if n < 8 then 8 else n) = max 8 n := by
  split <;> omega

/-- `REQ_SIZE` clamped up to one bucket's bits, divided into whole buckets. -/
theorem normSize_eq_ite (rs : Word) :
    normSize rs = if max 8 rs.toNat / 8 % 2 = 0 then max 8 rs.toNat / 8 + 1 else max 8 rs.toNat / 8 := by
  rw [← clamp_eq_max]
  rfl

theorem normSize_eq_or_one (rs : Word) : normSize rs = max 8 rs.toNat / 8 ||| 1 := by
  rw [normSize_eq_ite, or_one_eq_ite]

theorem normSize_le (rs : Word) : normSize rs ≤ 536870911 := by
  have hrs : rs.toNat < 2 ^ 32 := rs.isLt
  rw [normSize_eq_ite]
  split <;> omega

theorem normSize_of_le {rs : Word} (h : rs.toNat ≤ 15) : normSize rs = 1 := by
  have hone : max 8 rs.toNat / 8 = 1 := by omega
  rw [normSize_eq_or_one, hone]
  rfl

/-- Settles O35, from the two forms of the size rule and its bounds. -/
theorem sizeNormalisation : Obligations.SizeNormalisation := by
  refine ⟨fun rs => ?_, by decide, by decide, by decide⟩
  rw [clamp_eq_max]
  exact ⟨normSize_eq_ite rs, normSize_eq_or_one rs, by omega, normSize_le rs, normSize_of_le⟩

/-! ### Refused commands -/

/-- The whole next state of a refused command: its response, and nothing else (R171). -/
theorem exec_refused_answer {i : Instr} {s : State} {c : BitVec 8} (h : errorOf i s = c) (hc : c ≠ 0) :
    exec i s = .next { s with rsp := s.rsp ++ [answer i.opc s.configured false c, 0] } := by
  subst h
  obtain ⟨e, hcode, he⟩ := exec_refused hc
  rw [he, raise, respond_eq_answer, hcode]

/-! ### What clears a bit (R153) -/

/-- `set_bit` only ever sets, and every command but a constructing `CONFIG` leaves the array or sets bits. -/
theorem exec_keeps_set_bit {i : Instr} {s t : State} {a b : Nat} (hw : s.bits.wf) (hi : constructs i = false)
    (h : exec i s = .next t) (hb : b < 8) (hset : s.bitSet a b = true) : t.bitSet a b = true := by
  obtain ⟨u, e, m, d, rfl, -, -, -, rfl | ⟨k, rs, rfl, hrs, -⟩ | ⟨p, -, -, hu⟩⟩ := exec_next_inv h
  · exact hset
  · rw [constructs_config_of_le k hrs] at hi
    contradiction
  · obtain ⟨bits, hbits, -, -, hbit, -⟩ := setBits_of_lt (setBits_ok_inv hu).2
    cases hu.symm.trans hbits
    exact (hbit hw a b hb).trans (by rw [hset, Bool.true_or])

theorem lt_of_bitSet {s : State} {a b : Nat} (h : s.bitSet a b = true) : b < 8 :=
  BitVec.lt_of_getLsbD (bitSet_eq_getLsbD s a b ▸ h)

/-! ### The command (R142) -/

theorem exec_config (k : BitVec 8) (len : BitVec 16) (rs : Word) (s : State) :
    exec (.config k len rs) s = execConfig k len rs s := rfl

/-- Settles O36: the refusals by error code, the executed `CONFIG` from `execConfig_ok`, and `exec_keeps_set_bit`. -/
theorem configConstructsFilter : Obligations.ConfigConstructsFilter := by
  refine fun k len rs s => ⟨fun hlen => ?_, fun hlen hcap => ?_, ?_, fun hw i t a b h hset hclear => ?_⟩
  · exact exec_refused_answer (by rw [errorOf_config, if_neg hlen]) (by decide)
  · exact exec_refused_answer (by rw [errorOf_config, if_pos hlen, if_neg (Nat.not_le.2 hcap)]) (by decide)
  · rintro rfl hsize
    refine ⟨_, execConfig_ok k hsize s, rfl, rfl, rfl, Memory.zeroed_wf, fun a ha => memRead_of_lt ha, rfl, rfl, ?_⟩
    have hword : rsp0 opcConfig true false .none = 0x01000200 := by decide
    rw [respond_rsp, hword]
  · by_contra hi
    have hkept := exec_keeps_set_bit hw (Bool.eq_false_iff.2 hi) h (lt_of_bitSet hset) hset
    rw [hclear] at hkept
    contradiction

end Sys2Proof.Proofs
end

