-- ==== Sys2Proof/Proofs/AddQuery.lean ====
section
/-!
PROOFS. `ADD` and `QUERY` (R144, R145, R151): the index pairs of the empty payload, both commands refused, on a filter
and with no rounds, and the obligations `AddSetsIndexBits`, `QueryTestsIndexBits` and `ZeroRounds` from them.
-/

namespace Sys2Proof.Proofs
open Sys2Proof.Machine Sys2Proof.Claims

theorem exec_add (k : BitVec 8) (p : List Byte) (s : State) : exec (.add k p) s = execAdd k p s := rfl

theorem exec_query (k : BitVec 8) (p : List Byte) (s : State) : exec (.query k p) s = execQuery k p s := rfl

/-! ### The empty payload -/

/-- The hash of no bytes is its finalised seed, and the first seed 0 is a fixed point of it (R120). -/
theorem chain_nil (r : Nat) : chain [] r = List.replicate r 0 := by
  have hfix : hash32 [] seed0 = 0 := by decide
  rw [chain]
  induction r with
  | zero => rfl
  | succ r ih => rw [chainFrom_succ, hfix, List.replicate_succ, ← ih, seed0]

theorem indexPair_zero (n : Nat) : indexPair n 0 = (0, 0) := by
  have hbucket : bucketIndex 0 n = 0 := by simp [bucketIndex, emod]
  have hbit : bitIndex 0 = 0 := by decide
  rw [indexPair, hbucket, hbit]

theorem indices_nil (r n : Nat) : indices [] r n = List.replicate r (0, 0) := by
  rw [indices, chain_nil, List.map_replicate, indexPair_zero]

/-! ### The responses of an executed command -/

/-- The acknowledgement of R144. -/
theorem respond_add (s : State) (h : s.configured = true) :
    respond opcAdd .none false 0 s = { s with rsp := s.rsp ++ [0x03000200, 0] } := by
  have hword : answer opcAdd true false Err.none.code = 0x03000200 := by decide
  rw [respond_eq_answer, h, hword]

theorem respond_query (s : State) (h : s.configured = true) (m : Bool) :
    respond opcQuery .none m 0 s = { s with rsp := s.rsp ++ [answer 0x04 true m 0x00, 0] } := by
  rw [respond_eq_answer, h, opcQuery, Err.code]

/-! ### `ADD` (R144) -/

/-- Settles O41: the refusals by error code, the executed `ADD` from `execAdd_ok`. -/
theorem addSetsIndexBits : Obligations.AddSetsIndexBits := by
  refine fun k B s => ⟨fun hk => ?_, fun hk hc => ?_, ?_, indices_nil _ _⟩
  · exact exec_refused_answer (by rw [errorOf_add, if_neg hk]) (by decide)
  · exact exec_refused_answer (by rw [errorOf_add, if_pos hk, hc, if_neg Bool.false_ne_true]) (by decide)
  · rintro rfl hc hn hw
    obtain ⟨m, hm, hwf, -, hbit, -⟩ := execAdd_ok B hc hn
    refine ⟨m, ?_, hwf hw, fun x y _ hy => ?_⟩
    · rw [exec_add, hm, respond_add { s with bits := m } hc]
    · rw [← bucketBit_eq, hbit hw x y (by omega), bitSet_eq_getLsbD]

/-! ### `QUERY` (R145) -/

theorem all_bitSet_eq_decide (s : State) (ps : List (Nat × Nat)) :
    (ps.all fun p => s.bitSet p.1 p.2) = decide (∀ p ∈ ps, (s.bits.read p.1).getLsbD p.2 = true) := by
  rw [Bool.eq_iff_iff]
  simp only [List.all_eq_true, decide_eq_true_iff, bitSet_eq_getLsbD]

/-- Settles O44: the refusals by error code, the executed `QUERY` from `execQuery_ok`. -/
theorem queryTestsIndexBits : Obligations.QueryTestsIndexBits := by
  refine fun k B s => ⟨fun hk => ?_, fun hk hc => ?_, ?_⟩
  · exact exec_refused_answer (by rw [errorOf_query, if_neg hk]) (by decide)
  · exact exec_refused_answer (by rw [errorOf_query, if_pos hk, hc, if_neg Bool.false_ne_true]) (by decide)
  · rintro rfl hc hn
    rw [exec_query, execQuery_ok B hc hn, respond_query s hc, all_bitSet_eq_decide]

/-! ### No rounds (R151) -/

theorem indices_of_k_zero {s : State} (hk : s.k = 0) (p : List Byte) (n : Nat) : indices p s.k.toNat n = [] := by
  rw [hk]
  rfl

theorem execAdd_zero_rounds (p : List Byte) {s : State} (hc : s.configured = true) (hk : s.k = 0) :
    execAdd 0 p s = .next (respond opcAdd .none false 0 s) := by
  rw [execAdd_cfg p hc, indices_of_k_zero hk, setBits, orFault_ok]

theorem execQuery_zero_rounds (p : List Byte) {s : State} (hc : s.configured = true) (hk : s.k = 0) :
    execQuery 0 p s = .next (respond opcQuery .none true 0 s) := by
  rw [execQuery_cfg p hc, indices_of_k_zero hk, testBits, orFault_ok]

/-- Settles O47: with `K = 0` the item has no index pairs, so the loops do nothing. -/
theorem zeroRounds : Obligations.ZeroRounds := by
  refine ⟨fun rs s hsize => ⟨_, execConfig_ok 0 hsize s, rfl, rfl⟩, fun B s hc hk => ⟨?_, ?_⟩⟩
  · rw [exec_add, execAdd_zero_rounds B hc hk, respond_add s hc]
  · have hword : answer 0x04 true true 0x00 = 0x04000300 := by decide
    rw [exec_query, execQuery_zero_rounds B hc hk, respond_query s hc, hword]

end Sys2Proof.Proofs
end

