-- ==== Sys2Proof/Proofs/Refusals.lean ====
section
/-!
PROOFS. Refused commands (R171, R172, R176, R177): the capacity check for every `MAX_BUCKETS`, the error code of a
command by what is wrong with it, the header a decoded command came from, and the obligations
`CapacityIsRefusedNotClamped`, `ErrorCodesAndPriority` and `RefusedCommandChangesNothing` from them.
-/

namespace Sys2Proof.Proofs
open Sys2Proof.Machine Sys2Proof.Claims

/-! ### The capacity check (R176) -/

theorem constructFilter_capacity {maxBuckets : Nat} {rs : Word} (h : maxBuckets < normSize rs) (k : BitVec 8)
    (s : State) : constructFilter maxBuckets k 0 rs s = raise opcConfig .capacity s := by
  rw [constructFilter, if_neg (not_not_intro rfl), if_pos h]

theorem constructFilter_ok {maxBuckets : Nat} {rs : Word} (h : normSize rs ≤ maxBuckets) (k : BitVec 8) (s : State) :
    constructFilter maxBuckets k 0 rs s = respond opcConfig .none false (BitVec.ofNat 32 (normSize rs))
      { s with k := k, size := normSize rs, bits := Memory.zeroed, configured := true } := by
  rw [constructFilter, if_neg (not_not_intro rfl), if_neg (Nat.not_lt.2 h)]

/-- The greatest `REQ_SIZE` within an odd capacity: rounding up to odd never passes the capacity, so every size below
one bucket more than it is accepted. -/
theorem normSize_le_iff {n : Nat} (hn : n % 2 = 1) (rs : Word) : normSize rs ≤ n ↔ rs.toNat ≤ 8 * n + 7 := by
  rw [normSize_eq_ite]
  split <;> omega

/-- Settles O37, from the two outcomes of the capacity check and the greatest accepted `REQ_SIZE` at 8191. -/
theorem capacityIsRefusedNotClamped : Obligations.CapacityIsRefusedNotClamped := by
  refine ⟨fun n k rs s _ => ⟨fun hcap => ?_, fun hsize => ?_⟩, normSize_le_iff (n := 8191) rfl⟩
  · rw [constructFilter_capacity hcap, raise, respond_eq_answer, opcConfig, Err.code]
  · rw [constructFilter_ok hsize]
    exact ⟨rfl, rfl⟩

/-! ### The error code by cause (R172, R177) -/

theorem errorOf_of_field {i : Instr} (h : fieldOk i = false) (s : State) : errorOf i s = 0x02 := if_pos h

theorem opc_eq_add_or_query_iff {i : Instr} :
    i.opc = 0x03 ∨ i.opc = 0x04 ↔ ∃ k p, i = .add k p ∨ i = .query k p := by
  cases i with
  | config | hash => simp [Instr.opc, opcConfig, opcHash]
  | add | query => simp [Instr.opc, opcAdd, opcQuery]

theorem errorOf_of_noCfg {i : Instr} {s : State} (hf : fieldOk i = true) (hopc : i.opc = 0x03 ∨ i.opc = 0x04)
    (hc : s.configured = false) : errorOf i s = 0x03 := by
  obtain ⟨k, p, rfl | rfl⟩ := opc_eq_add_or_query_iff.1 hopc
  · rw [errorOf_add, if_pos (of_decide_eq_true hf), hc, if_neg Bool.false_ne_true]
  · rw [errorOf_query, if_pos (of_decide_eq_true hf), hc, if_neg Bool.false_ne_true]

theorem errorOf_of_capacity {k : BitVec 8} {len : BitVec 16} {rs : Word} (hf : fieldOk (.config k len rs) = true)
    (hcap : Config.maxBuckets < normSize rs) (s : State) : errorOf (.config k len rs) s = 0x04 := by
  rw [errorOf_config, if_pos (of_decide_eq_true hf), if_neg (Nat.not_le.2 hcap)]

theorem errorOf_of_checks_passed {i : Instr} {s : State} (hf : fieldOk i = true)
    (hc : i.opc = 0x03 ∨ i.opc = 0x04 → s.configured = true)
    (hcap : ∀ k len rs, i = .config k len rs → normSize rs ≤ Config.maxBuckets) : errorOf i s = 0x00 := by
  cases i with
  | config k len rs => exact errorOf_config_eq_zero_iff.2 ⟨of_decide_eq_true hf, hcap k len rs rfl⟩
  | hash k seed p => exact errorOf_hash_eq_zero_iff.2 (of_decide_eq_true hf)
  | add k p => exact errorOf_add_eq_zero_iff.2 ⟨of_decide_eq_true hf, hc (.inl rfl)⟩
  | query k p => exact errorOf_query_eq_zero_iff.2 ⟨of_decide_eq_true hf, hc (.inr rfl)⟩

/-- The response a command has appended echoes its opcode and carries its error code (R68). -/
theorem exec_response_opc_err {i : Instr} {s t : State} {r0 r1 : Word} (h : exec i s = .next t)
    (hrsp : t.rsp = s.rsp ++ [r0, r1]) : r0.extractLsb' 24 8 = i.opc ∧ r0.extractLsb' 0 8 = errorOf i s := by
  obtain ⟨hcommand, -⟩ := responseFormat
  obtain ⟨q0, q1, hq, hopc, -, -, herr, -⟩ := hcommand i s t h
  cases List.append_cancel_left (hrsp.symm.trans hq)
  exact ⟨hopc, herr⟩

/-- Settles O50: a command's response carries `errorOf`, whose value each clause gives by its cause; a reserved opcode
gives the whole next state of R69. -/
theorem errorCodesAndPriority : Obligations.ErrorCodesAndPriority := by
  refine ⟨fun i s t r0 r1 h hrsp => ?_, fun s t hdr r0 r1 ws hr hcmd hres h hrsp => ?_⟩
  · obtain ⟨hopc, herr⟩ := exec_response_opc_err h hrsp
    rw [herr]
    refine ⟨hopc, fun hf => errorOf_of_field hf s, errorOf_of_noCfg, ?_, errorOf_of_checks_passed⟩
    rintro hf ⟨k, len, rs, rfl, hcap⟩
    exact errorOf_of_capacity hf hcap s
  · cases (reservedOpcodeIsRefused s hdr ws hr hcmd hres).symm.trans h
    cases List.append_cancel_left hrsp
    exact ⟨rsp0_opc _ s.configured false .opcode, rsp0_err _ s.configured false .opcode⟩

/-! ### The header of what was decoded (R71, R76) -/

theorem decodeWhole_command_opc {hdr : Word} {ops rest r : List Word} {i : Instr}
    (h : decodeWhole hdr ops rest = .command i r) : i.opc = hdrOpc hdr := by
  simp only [decodeWhole] at h
  split_ifs at h with hconfig hhash hadd hquery <;> cases h
  · exact hconfig.symm
  · exact hhash.symm
  · exact hadd.symm
  · exact hquery.symm

/-- Where the decoder does not wait, a header stands at the front with all the words it announces. -/
theorem whole_of_decode_ne_waiting {c : List Word} (h : decode c ≠ .waiting) :
    ∃ hdr ws, c = hdr :: ws ∧ cmdlen hdr ≤ (hdr :: ws).length := by
  cases c with
  | nil => exact absurd rfl h
  | cons hdr ws => exact ⟨hdr, ws, rfl, Nat.le_of_not_lt fun hlt => h (decode_of_lt hlt)⟩

theorem decode_command_inv {c rest : List Word} {i : Instr} (h : decode c = .command i rest) :
    ∃ hdr ws, c = hdr :: ws ∧ i.opc = hdrOpc hdr ∧ rest = c.drop (cmdlen hdr) := by
  obtain ⟨hdr, ws, rfl, hle⟩ := whole_of_decode_ne_waiting (h.trans_ne nofun)
  refine ⟨hdr, ws, rfl, decodeWhole_command_opc ((decode_of_le hle).symm.trans h), ?_⟩
  obtain ⟨j, hj⟩ | hres := decode_drop_cmdlen hle
  · cases hj.symm.trans h
    rfl
  · cases hres.symm.trans h

theorem decode_reserved_inv {c rest : List Word} {opc : BitVec 8} (h : decode c = .reserved opc rest) :
    ∃ hdr ws, c = hdr :: ws ∧ opc = hdrOpc hdr ∧ rest = c.drop (cmdlen hdr) := by
  obtain ⟨hdr, ws, rfl, hle⟩ := whole_of_decode_ne_waiting (h.trans_ne nofun)
  obtain ⟨j, hj⟩ | hres := decode_drop_cmdlen hle
  · cases hj.symm.trans h
  · cases hres.symm.trans h
    exact ⟨hdr, ws, rfl, rfl, rfl⟩

/-! ### What a refused step leaves (R171) -/

/-- Settles O49: a step that appends an error is the refusal of a reserved opcode or of a whole command, and either
leaves the old state but for the words and the response. -/
theorem refusedCommandChangesNothing : Obligations.RefusedCommandChangesNothing := by
  intro s t r0 r1 hr h hrsp herr
  obtain ⟨hheld, -⟩ | ⟨-, -, hs⟩ | ⟨opc, rest, -, hd, hs⟩ | ⟨i, rest, -, hd, hs⟩ := step_cases s
  · rw [hr] at hheld
    contradiction
  · cases hs.symm.trans h
    cases List.self_eq_append_right.1 hrsp
  · obtain ⟨hdr, ws, hcmd, rfl, rfl⟩ := decode_reserved_inv hd
    cases hs.symm.trans h
    cases List.append_cancel_left hrsp
    refine ⟨hdr, ws, hcmd, ?_⟩
    rw [rsp0_err, refuseReserved, raise, respond_eq_answer]
    rfl
  · obtain ⟨hdr, ws, hcmd, hopc, rfl⟩ := decode_command_inv hd
    have hexec := hs.symm.trans h
    obtain ⟨-, hcode⟩ := exec_response_opc_err hexec hrsp
    cases (exec_refused_answer hcode.symm herr).symm.trans hexec
    refine ⟨hdr, ws, hcmd, ?_⟩
    rw [hopc]
    rfl

end Sys2Proof.Proofs
end

