-- ==== Sys2Proof/Proofs/Reset.lean ====
section
/-!
PROOFS. The reset input (R200 to R202): what a step and the host's words do while `rst` is asserted, what its release
leaves, that no command takes `CONFIGURED` back, and the obligation `ResetHoldsAndAbandons` from them.
-/

namespace Sys2Proof.Proofs
open Sys2Proof.Machine Sys2Proof.Claims

/-! ### While `rst` is asserted (R200) -/

theorem step_of_rst {s : State} (h : s.rst = true) : step s = .next heldInReset := if_pos h

theorem sendWords_of_rst {s : State} (h : s.rst = true) (ws : List Word) : sendWords ws s = s := if_pos h

theorem heldInReset_inResetState : inResetState heldInReset :=
  ⟨heldInReset_configured, heldInReset_k, heldInReset_size, heldInReset_cmd, heldInReset_rsp⟩

/-! ### The release (R200 to R202) -/

theorem releaseReset_heldInReset : releaseReset heldInReset = State.reset := rfl

theorem reset_inResetState : inResetState State.reset :=
  ⟨State.reset_configured, State.reset_k, State.reset_size, State.reset_cmd, State.reset_rsp⟩

/-- After reset the block is idle: no word is at the command port, so it waits for a header. -/
theorem reset_awaits_header :
    State.reset.rst = false ∧ inResetState State.reset ∧ decode State.reset.cmd = .waiting :=
  ⟨State.reset_rst, reset_inResetState, rfl⟩

/-! ### No command is a software reset (R202) -/

theorem exec_keeps_configured {i : Instr} {s t : State} (h : exec i s = .next t) (hc : s.configured = true) :
    t.configured = true := by
  obtain ⟨u, e, m, d, rfl, -, -, -, hu⟩ := exec_next_inv h
  rw [respond_configured]
  obtain rfl | ⟨k, rs, -, -, rfl⟩ | ⟨p, -, -, hset⟩ := hu
  · exact hc
  · rfl
  · rw [(setBits_ok_inv hset).1]
    exact hc

/-- Settles O10: under `rst` a step leaves `heldInReset`, the host's pin does the same at once from any state, and the
release of `heldInReset` is the state after reset. -/
theorem resetHoldsAndAbandons : Obligations.ResetHoldsAndAbandons := by
  refine ⟨fun s hr => ?held, fun s ws hr => sendWords_of_rst hr ws, fun s ws => ?released, fun s t hr h => ?stepped,
    fun i s t => exec_keeps_configured⟩
  case held => exact ⟨heldInReset, step_of_rst hr, heldInReset_rst, heldInReset_inResetState⟩
  case released => exact reset_awaits_header
  case stepped =>
    cases (step_of_rst hr).symm.trans h
    rw [releaseReset_heldInReset]
    exact reset_awaits_header

end Sys2Proof.Proofs
end

