-- ==== Sys2Proof/Proofs/RoundTrip.lean ====
section
/-!
PROOFS. The encoder and the decoder agree (R62 to R67, R71, R74, R76), and a line of the textual form is the command
it stands for, encoded (R73): the obligations `DecodeEncodeRoundTrip`, `WorkedWordsDecode` and `AssembledLineDecodes`.
-/

namespace Sys2Proof.Proofs
open Sys2Proof.Machine Sys2Proof.Claims
open Sys2Proof.Laws.EncodedLength (toNat_len)

/-! ### Decoding an encoding -/

/-- The header of a command with payload `p` announces the words `p` is packed into. -/
theorem length_packPayload_header (opc k : BitVec 8) {p : List Byte} (h : p.length ≤ Config.maxLen) :
    (packPayload p).length = payloadWords (hdrLen (header opc k (BitVec.ofNat 16 p.length))).toNat := by
  rw [hdrLen_header, toNat_len h, length_packPayload]

/-- Unpacking by that header gives `p` back. -/
theorem unpackPayload_header (opc k : BitVec 8) {p : List Byte} (h : p.length ≤ Config.maxLen) :
    unpackPayload (hdrLen (header opc k (BitVec.ofNat 16 p.length))).toNat (packPayload p) = p := by
  rw [hdrLen_header, toNat_len h, unpackPayload_packPayload]

theorem decode_encode {i : Instr} (h : i.WellFormed) (rest : List Word) :
    decode (encode i ++ rest) = .command i rest := by
  cases i with
  | config k len rs =>
    have hdec := decode_config (hdrOpc_header opcConfig k len) rs rest
    rwa [hdrK_header, hdrLen_header] at hdec
  | hash k seed p =>
    have hdec := decode_hash (hdrOpc_header opcHash k _) seed (length_packPayload_header opcHash k h) rest
    rwa [hdrK_header, unpackPayload_header opcHash k h] at hdec
  | add k p =>
    have hdec := decode_add (hdrOpc_header opcAdd k _) (length_packPayload_header opcAdd k h) rest
    rwa [hdrK_header, unpackPayload_header opcAdd k h] at hdec
  | query k p =>
    have hdec := decode_query (hdrOpc_header opcQuery k _) (length_packPayload_header opcQuery k h) rest
    rwa [hdrK_header, unpackPayload_header opcQuery k h] at hdec

/-- Settles O1: each format's decoding equation, at the header and the payload words the encoder writes. -/
theorem decodeEncodeRoundTrip : Obligations.DecodeEncodeRoundTrip := fun _ => decode_encode

/-- Settles O2, by running the decoder. -/
theorem workedWordsDecode : Obligations.WorkedWordsDecode := by
  unfold Obligations.WorkedWordsDecode
  decide

/-! ### The textual form of commands (R73) -/

theorem asmBytes_hex_eq_some_iff {bs p : List Byte} : asmBytes (.hex bs) = some p ↔ p = bs := by
  rw [asmBytes, Option.some_inj, eq_comm]

/-- Below 128 a character's code is the byte's value, and bytes with the same values are the same bytes. -/
theorem asmBytes_text_eq_some_iff {cs : List Char} {p : List Byte} :
    asmBytes (.text cs) = some p ↔ (∀ c ∈ cs, c.toNat < 128) ∧ p.map BitVec.toNat = cs.map Char.toNat := by
  have hall : (cs.all fun c => c.toNat < 128) = true ↔ ∀ c ∈ cs, c.toNat < 128 := by
    simp only [List.all_eq_true, decide_eq_true_eq]
  by_cases hascii : ∀ c ∈ cs, c.toNat < 128
  · have hcodes : (cs.map fun c => BitVec.ofNat 8 c.toNat).map BitVec.toNat = cs.map Char.toNat := by
      rw [List.map_map]
      refine List.map_congr_left fun c hc => ?_
      have := hascii c hc
      simp only [Function.comp_apply, BitVec.toNat_ofNat]
      omega
    have hinj : Function.Injective (List.map (BitVec.toNat (w := 8))) :=
      List.map_injective_iff.2 fun _ _ => BitVec.eq_of_toNat_eq
    rw [asmBytes, if_pos (hall.2 hascii), Option.some_inj, eq_comm, ← hinj.eq_iff, hcodes]
    exact (and_iff_right hascii).symm
  · rw [asmBytes, if_neg (mt hall.1 hascii)]
    exact iff_of_false nofun fun h => hascii h.1

theorem asmInstr_config_eq_some_iff {size k : Nat} {i : Instr} :
    asmInstr (.config size k) = some i ↔
      size < 2 ^ 32 ∧ k < 256 ∧ ∃ kf rs, i = .config kf 0 rs ∧ kf.toNat = k ∧ rs.toNat = size := by
  rw [asmInstr]
  split_ifs with hrange
  · obtain ⟨hsize, hk⟩ := hrange
    rw [Option.some_inj]
    constructor
    · rintro rfl
      exact ⟨hsize, hk, _, _, rfl, Nat.mod_eq_of_lt hk, Nat.mod_eq_of_lt hsize⟩
    · rintro ⟨-, -, kf, rs, rfl, rfl, rfl⟩
      rw [BitVec.ofNat_toNat, BitVec.setWidth_eq, BitVec.ofNat_toNat, BitVec.setWidth_eq]
  · exact iff_of_false nofun fun ⟨hsize, hk, _⟩ => hrange ⟨hsize, hk⟩

theorem asmPayload_eq_some_iff {b : AsmBytes} {p : List Byte} :
    asmPayload b = some p ↔ asmBytes b = some p ∧ p.length ≤ 65535 := by
  rw [asmPayload, Option.filter_eq_some_iff, decide_eq_true_iff, Config.maxLen]

/-- A seed is the one word whose value is the integer modulo 2^32. -/
theorem eq_ofInt_iff {seed : Int} {sd : Word} : sd = BitVec.ofInt 32 seed ↔ (sd.toNat : Int) = seed % 2 ^ 32 := by
  rw [← BitVec.toNat_inj, BitVec.toNat_ofInt]
  omega

theorem asmInstr_hash_eq_some_iff {seed : Int} {b : AsmBytes} {i : Instr} :
    asmInstr (.hash seed b) = some i ↔
      ∃ p sd, asmBytes b = some p ∧ p.length ≤ 65535 ∧ i = .hash 0 sd p ∧ (sd.toNat : Int) = seed % 2 ^ 32 := by
  rw [asmInstr, Option.map_eq_some_iff]
  simp only [asmPayload_eq_some_iff, ← eq_ofInt_iff]
  constructor
  · rintro ⟨p, ⟨hp, hlen⟩, rfl⟩
    exact ⟨p, _, hp, hlen, rfl, rfl⟩
  · rintro ⟨p, _, hp, hlen, rfl, rfl⟩
    exact ⟨p, ⟨hp, hlen⟩, rfl⟩

/-- `ADD` and `QUERY` lines: the payload under a command's constructor `c`. -/
theorem map_asmPayload_eq_some_iff {c : List Byte → Instr} {b : AsmBytes} {i : Instr} :
    (asmPayload b).map c = some i ↔ ∃ p, asmBytes b = some p ∧ p.length ≤ 65535 ∧ i = c p := by
  simp only [Option.map_eq_some_iff, asmPayload_eq_some_iff, and_assoc, eq_comm (a := i)]

theorem assemble_eq_some_iff {l : AsmLine} {ws : List Word} :
    assemble l = some ws ↔ ∃ i, asmInstr l = some i ∧ ws = encode i := by
  simp only [assemble, Option.map_eq_some_iff, eq_comm (a := ws)]

/-- The command of a line can be encoded, and its must-be-zero field is 0. -/
theorem asmInstr_wellFormed {l : AsmLine} {i : Instr} (h : asmInstr l = some i) : i.WellFormed ∧ fieldOk i = true := by
  cases l with
  | config size k =>
    obtain ⟨-, -, kf, rs, rfl, -⟩ := asmInstr_config_eq_some_iff.1 h
    exact ⟨Nat.zero_le _, rfl⟩
  | hash seed b =>
    obtain ⟨p, sd, -, hlen, rfl, -⟩ := asmInstr_hash_eq_some_iff.1 h
    exact ⟨hlen, rfl⟩
  | add b =>
    obtain ⟨p, -, hlen, rfl⟩ := map_asmPayload_eq_some_iff.1 h
    exact ⟨hlen, rfl⟩
  | query b =>
    obtain ⟨p, -, hlen, rfl⟩ := map_asmPayload_eq_some_iff.1 h
    exact ⟨hlen, rfl⟩

/-- Settles O6, form by form, and by the round trip for the words of a line. -/
theorem assembledLineDecodes : Obligations.AssembledLineDecodes := by
  refine ⟨fun _ _ => asmBytes_hex_eq_some_iff, fun _ _ => asmBytes_text_eq_some_iff,
    fun _ _ _ => asmInstr_config_eq_some_iff, fun _ _ _ => asmInstr_hash_eq_some_iff,
    fun _ _ => map_asmPayload_eq_some_iff, fun _ _ => map_asmPayload_eq_some_iff, fun _ _ => assemble_eq_some_iff, ?_⟩
  intro l ws rest h
  obtain ⟨i, hi, rfl⟩ := assemble_eq_some_iff.1 h
  obtain ⟨hwf, hfield⟩ := asmInstr_wellFormed hi
  exact ⟨i, hi, hwf, hfield, decode_encode hwf rest⟩

end Sys2Proof.Proofs
end

