-- ==== Sys2Proof/Proofs/Invariant.lean ====
section
/-!
PROOFS. The invariant of the block (R24, R29, R55, R143): it holds after reset, and every command, step and move of the
host keeps it, so no schedule stops the block; `SIZE` is legal after a constructing `CONFIG` whatever follows. The
obligations `ResetStateValues`, `ResetMeetsInvariant`, `StepKeepsInvariant`, `StepNeverStops`,
`EveryScheduleKeepsInvariant` and `SizeIsOddAfterConfig`.
-/

namespace Sys2Proof.Proofs
open Sys2Proof.Machine Sys2Proof.Claims

/-! ### Reset -/

/-- Settles O11: with `SIZE = 0` every bucket index is out of range. -/
theorem resetStateValues : Obligations.ResetStateValues :=
  ⟨State.reset_configured, State.reset_k, State.reset_size, State.reset_cmd, State.reset_rsp,
    fun a => memRead_of_ge (Nat.zero_le a)⟩

theorem reset_inv : State.reset.Inv :=
  ⟨Memory.wf_nil, fun _ hc => absurd hc List.not_mem_nil, fun _ => ⟨rfl, rfl⟩, nofun⟩

/-- Settles O12. -/
theorem resetMeetsInvariant : Obligations.ResetMeetsInvariant := reset_inv

/-! ### Legal sizes (R143) -/

/-- A `SIZE` that a filter can have. -/
abbrev LegalSize (n : Nat) : Prop := n % 2 = 1 ∧ 1 ≤ n ∧ n ≤ Config.maxBuckets

theorem legalSize_normSize {rs : Word} (h : normSize rs ≤ Config.maxBuckets) : LegalSize (normSize rs) := by
  have hodd : normSize rs % 2 = 1 := by
    rw [normSize_eq_ite]
    split <;> omega
  exact ⟨hodd, by omega, h⟩

theorem constructs_iff {i : Instr} :
    constructs i = true ↔ ∃ k rs, i = .config k 0 rs ∧ normSize rs ≤ Config.maxBuckets := by
  constructor
  · intro h
    cases i with
    | config k len rs =>
      obtain ⟨rfl, hsize⟩ := of_decide_eq_true h
      exact ⟨k, rs, rfl, hsize⟩
    | hash | add | query => cases h
  · rintro ⟨k, rs, rfl, hsize⟩
    exact constructs_config_of_le k hsize

/-- A command leaves `SIZE` or puts a normalised size there. -/
theorem exec_size {i : Instr} {s t : State} (h : exec i s = .next t) :
    t.size = s.size ∨ ∃ rs, normSize rs ≤ Config.maxBuckets ∧ t.size = normSize rs := by
  obtain ⟨u, e, m, d, rfl, -, -, -, rfl | ⟨k, rs, -, hrs, rfl⟩ | ⟨p, -, -, hset⟩⟩ := exec_next_inv h
  · exact .inl rfl
  · exact .inr ⟨rs, hrs, rfl⟩
  · rw [respond_size, (setBits_ok_inv hset).1]
    exact .inl rfl

theorem exec_keeps_legalSize {i : Instr} {s t : State} (hs : LegalSize s.size) (h : exec i s = .next t) :
    LegalSize t.size := by
  obtain hsame | ⟨rs, hrs, hnew⟩ := exec_size h
  · rwa [hsame]
  · rw [hnew]
    exact legalSize_normSize hrs

/-- What every command of a run keeps, the run keeps. -/
theorem runCommands_keeps {P : State → Prop} {is : List Instr}
    (hP : ∀ i ∈ is, ∀ s t, P s → exec i s = .next t → P t) {s t : State} (hs : P s)
    (h : runCommands is s = .next t) : P t := by
  induction is generalizing s with
  | nil =>
    cases h
    exact hs
  | cons i is ih =>
    obtain ⟨hi, his⟩ := List.forall_mem_cons.1 hP
    obtain ⟨u, hu, ht⟩ := runCommands_cons_inv h
    exact ih his (hi s u hs hu) ht

/-- Settles O38: the constructing `CONFIG` leaves a legal size and every command keeps it legal. -/
theorem sizeIsOddAfterConfig : Obligations.SizeIsOddAfterConfig := by
  intro i is s t u hi h hrun
  obtain ⟨k, rs, rfl, hrs⟩ := constructs_iff.1 hi
  cases (execConfig_ok k hrs s).symm.trans h
  exact runCommands_keeps (P := fun s => LegalSize s.size) (fun _ _ _ _ => exec_keeps_legalSize)
    (legalSize_normSize hrs) hrun

/-! ### What keeps the invariant -/

theorem inv_respond {u : State} (h : u.Inv) (opc : BitVec 8) (e : Err) (m : Bool) (d : Word) :
    (respond opc e m d u).Inv :=
  ⟨h.bits_wf, h.bits_below, h.unconfigured, h.size_legal⟩

theorem inv_setBits {s t : State} {ps : List (Nat × Nat)} (hs : s.Inv) (h : setBits s ps = .ok t) : t.Inv := by
  obtain ⟨m, hm, hwf, hbelow, -⟩ := setBits_of_lt (setBits_ok_inv h).2
  cases h.symm.trans hm
  exact ⟨hwf hs.bits_wf, hbelow hs.bits_below, hs.unconfigured, hs.size_legal⟩

/-- The empty array of a filter just constructed lies in any size. -/
theorem inv_constructed (s : State) (k : BitVec 8) {rs : Word} (h : normSize rs ≤ Config.maxBuckets) :
    ({ s with k := k, size := normSize rs, bits := Memory.zeroed, configured := true } : State).Inv :=
  ⟨Memory.zeroed_wf, fun _ hc => absurd hc List.not_mem_nil, (by rintro ⟨⟩), fun _ => legalSize_normSize h⟩

theorem exec_keeps_inv {i : Instr} {s t : State} (hs : s.Inv) (h : exec i s = .next t) : t.Inv := by
  obtain ⟨u, e, m, d, rfl, -, -, -, rfl | ⟨k, rs, -, hrs, rfl⟩ | ⟨p, -, -, hset⟩⟩ := exec_next_inv h
  · exact inv_respond hs ..
  · exact inv_respond (inv_constructed s k hrs) ..
  · exact inv_respond (inv_setBits hs hset) ..

theorem runCommands_completes {is : List Instr} {s : State} (hs : s.Inv) : ∃ t, runCommands is s = .next t := by
  induction is generalizing s with
  | nil => exact ⟨s, rfl⟩
  | cons i is ih =>
    obtain ⟨u, hu⟩ := exec_completes hs i
    rw [runCommands_cons_next hu]
    exact ih (exec_keeps_inv hs hu)

theorem heldInReset_inv : heldInReset.Inv :=
  ⟨reset_inv.bits_wf, reset_inv.bits_below, reset_inv.unconfigured, reset_inv.size_legal⟩

/-- Settles O13: one case for each thing a step can be. -/
theorem stepKeepsInvariant : Obligations.StepKeepsInvariant := by
  intro s t hs h
  obtain ⟨-, hstep⟩ | ⟨-, -, hstep⟩ | ⟨opc, rest, -, -, hstep⟩ | ⟨i, rest, -, -, hstep⟩ := step_cases s <;>
    rw [hstep] at h
  · cases h
    exact heldInReset_inv
  · cases h
    exact hs
  · cases h
    exact inv_respond (inv_consume hs rest) ..
  · exact exec_keeps_inv (inv_consume hs rest) h

/-- Settles O14: only a command could stop, and under the invariant every command completes. -/
theorem stepNeverStops : Obligations.StepNeverStops := by
  intro s hs
  obtain ⟨-, hstep⟩ | ⟨-, -, hstep⟩ | ⟨opc, rest, -, -, hstep⟩ | ⟨i, rest, -, -, hstep⟩ := step_cases s
  · exact ⟨_, hstep⟩
  · exact ⟨_, hstep⟩
  · exact ⟨_, hstep⟩
  · rw [hstep]
    exact exec_completes (inv_consume hs rest) i

/-! ### Schedules -/

theorem hostMove_keeps_inv {s : State} (hs : s.Inv) (m : HostMove) : (hostMove m s).Inv := by
  cases m with
  | send ws =>
    rw [hostMove, sendWords]
    split
    · exact hs
    · exact inv_consume hs _
  | assertReset => exact heldInReset_inv
  | take | releaseReset => exact ⟨hs.bits_wf, hs.bits_below, hs.unconfigured, hs.size_legal⟩

theorem runEvents_block {es : List Event} {s u : State} (h : step s = .next u) :
    runEvents (.block :: es) s = runEvents es u := by
  simp only [runEvents, h]

/-- Settles O15: neither a move of the host nor a step leaves the invariant, and under it a step never stops. -/
theorem everyScheduleKeepsInvariant : Obligations.EveryScheduleKeepsInvariant := by
  intro es
  induction es with
  | nil => exact fun s hs => ⟨s, rfl, hs⟩
  | cons e es ih =>
    intro s hs
    cases e with
    | host m => exact ih (hostMove m s) (hostMove_keeps_inv hs m)
    | block =>
      obtain ⟨u, hu⟩ := stepNeverStops s hs
      rw [runEvents_block hu]
      exact ih u (stepKeepsInvariant s u hs hu)

end Sys2Proof.Proofs
end

