-- ==== Sys2Proof/Proofs/Stream.lean ====
section
/-!
PROOFS. Steps over the words at the command port (R49, R61, R71, R182): a step runs what is decoded there, words that
come later change nothing of what a step does with those before them, and a run of steps over encoded commands is the
run of the commands. The obligations `StepRunsDecodedCommand`, `StepWaitsForWholeCommand`, `StreamRunsCommandsInOrder`,
`PortTimingIsInvisible` and `OneResponsePairPerCommand`.
-/

namespace Sys2Proof.Proofs
open Sys2Proof.Machine Sys2Proof.Claims

/-! ### One step -/

/-- The payload of a decoded command is at most as long as a 16-bit `LEN` says (R62). -/
theorem decodeWhole_wellFormed {hdr : Word} {ops rest r : List Word} {i : Instr}
    (h : decodeWhole hdr ops rest = .command i r) : i.WellFormed := by
  have hlen (ws : List Word) : (unpackPayload (hdrLen hdr).toNat ws).length ≤ Config.maxLen :=
    (length_unpackPayload_le _ ws).trans (Nat.le_of_lt_succ (hdrLen hdr).isLt)
  simp only [decodeWhole] at h
  split_ifs at h <;> cases h
  · exact Nat.zero_le _
  · exact hlen ops.tail
  · exact hlen ops
  · exact hlen ops

theorem decode_command_wellFormed {c rest : List Word} {i : Instr} (h : decode c = .command i rest) :
    i.WellFormed := by
  obtain ⟨hdr, ws, rfl, hle⟩ := whole_of_decode_ne_waiting (h.trans_ne nofun)
  rw [decode_of_le hle] at h
  exact decodeWhole_wellFormed h

/-- Settles O7, from `step_of_command`. -/
theorem stepRunsDecodedCommand : Obligations.StepRunsDecodedCommand :=
  fun _ _ _ hr hd => ⟨decode_command_wellFormed hd, step_of_command hr hd⟩

theorem step_of_waiting {s : State} (hr : s.rst = false) (hd : decode s.cmd = .waiting) : step s = .next s := by
  simp only [step, hr, fetch, hd, awaitWords, Bool.false_eq_true, if_false]

/-- Settles O8: with no header or fewer than `cmdlen` words the decoder waits. -/
theorem stepWaitsForWholeCommand : Obligations.StepWaitsForWholeCommand := by
  rintro s hr (hcmd | ⟨hdr, ws, hcmd, hlt⟩) <;> refine step_of_waiting hr ?_
  · rw [hcmd]
    rfl
  · rw [hcmd] at hlt ⊢
    exact decode_of_lt hlt

theorem exec_keeps_rst {i : Instr} {s t : State} (h : exec i s = .next t) : t.rst = s.rst := by
  obtain ⟨u, e, m, d, rfl, -, -, hrst, -⟩ := exec_next_inv h
  rw [respond_rst, hrst]

/-! ### A stream of encoded commands -/

/-- With the words of a command at the front of the port, a step is the command, and the words after it are left. -/
theorem step_encode {i : Instr} (hi : i.WellFormed) {s : State} (hr : s.rst = false) (rest : List Word) :
    step { s with cmd := encode i ++ rest } = exec i { s with cmd := rest } :=
  step_of_command hr (decode_encode hi rest)

/-- Settles O16, by induction on the commands; where one faults, both runs end with its fault. -/
theorem streamRunsCommandsInOrder : Obligations.StreamRunsCommandsInOrder := by
  intro is
  induction is with
  | nil => exact fun s rest _ _ => rfl
  | cons i is ih =>
    intro s rest hwf hr
    obtain ⟨hi, his⟩ := List.forall_mem_cons.1 hwf
    have hstep := step_encode hi hr (encodeAll is ++ rest)
    rw [exec_setCmd] at hstep
    rw [encodeAll, List.flatMap_cons, List.append_assoc, ← encodeAll, List.length_cons, runCommands, exec_setCmd]
    cases hexec : exec i s with
    | next t =>
      rw [hexec] at hstep
      rw [run_succ_next hstep]
      exact ih t rest his ((exec_keeps_rst hexec).trans hr)
    | fault f =>
      rw [hexec] at hstep
      exact run_succ_fault hstep _
    | refused r =>
      rw [hexec] at hstep
      exact run_succ_refused hstep _

/-! ### Words that come later -/

theorem sendWords_of_released {s : State} (hr : s.rst = false) (ws : List Word) :
    sendWords ws s = { s with cmd := s.cmd ++ ws } := if_neg (by rw [hr]; decide)

theorem sendWords_rst (ws : List Word) (s : State) : (sendWords ws s).rst = s.rst := by
  rw [sendWords]
  split <;> rfl

theorem sendWords_cmd {s : State} (hr : s.rst = false) (ws : List Word) : (sendWords ws s).cmd = s.cmd ++ ws := by
  rw [sendWords_of_released hr]

theorem sendWords_append {s : State} (hr : s.rst = false) (ws ws' : List Word) :
    sendWords (ws ++ ws') s = sendWords ws' (sendWords ws s) := by
  rw [sendWords_of_released ((sendWords_rst ws s).trans hr), sendWords_of_released hr, sendWords_of_released hr,
    List.append_assoc]

/-- What is decoded is decoded alike with more words behind it, which stay behind (R61, R71). -/
theorem decode_append {c : List Word} (ws : List Word) :
    decode c = .waiting ∨
      (∃ i rest, decode c = .command i rest ∧ decode (c ++ ws) = .command i (rest ++ ws)) ∨
      ∃ opc rest, decode c = .reserved opc rest ∧ decode (c ++ ws) = .reserved opc (rest ++ ws) := by
  refine or_iff_not_imp_left.2 fun hd => ?_
  obtain ⟨hdr, c, rfl, hle⟩ := whole_of_decode_ne_waiting hd
  have hle' : cmdlen hdr - 1 ≤ c.length := Nat.sub_le_of_le_add hle
  rw [List.cons_append, decode_of_le hle, decode_of_le (by rw [List.length_append]; omega),
    List.take_append_of_le_length hle', List.drop_append_of_le_length hle']
  obtain ⟨i, hi⟩ | hres := decodeWhole_rest hdr (c.take (cmdlen hdr - 1))
  · exact .inl ⟨i, _, hi _, hi _⟩
  · exact .inr ⟨_, _, hres _, hres _⟩

/-- Words sent before a step or after it: the same, if the block is not waiting for them. -/
theorem step_sendWords {s t : State} (hr : s.rst = false) (hd : decode s.cmd ≠ .waiting) (h : step s = .next t)
    (ws : List Word) : step (sendWords ws s) = .next (sendWords ws t) ∧ t.rst = false := by
  have hrs := (sendWords_rst ws s).trans hr
  have hcmd := sendWords_cmd hr ws
  obtain hwait | ⟨i, rest, hc, hc'⟩ | ⟨opc, rest, hc, hc'⟩ := decode_append (c := s.cmd) ws
  · exact absurd hwait hd
  · rw [step_of_command hr hc] at h
    have hrt : t.rst = false := (exec_keeps_rst h).trans hr
    have hrest : t.cmd = rest := exec_keeps_cmd h
    have hlater := exec_setCmd i (consume rest s) (rest ++ ws)
    rw [h] at hlater
    rw [step_of_command hrs (hcmd ▸ hc'), sendWords_of_released hr, sendWords_of_released hrt, hrest]
    exact ⟨hlater, hrt⟩
  · rw [step_of_reserved hr hc] at h
    cases h
    have hrt : (refuseReserved opc rest s).rst = false := hr
    rw [step_of_reserved hrs (hcmd ▸ hc'), sendWords_of_released hr, sendWords_of_released hrt]
    exact ⟨rfl, hrt⟩

theorem step_keeps_released {s t : State} (hr : s.rst = false) (h : step s = .next t) : t.rst = false := by
  by_cases hd : decode s.cmd = .waiting
  · cases (step_of_waiting hr hd).symm.trans h
    exact hr
  · exact (step_sendWords hr hd h []).2

theorem run_keeps_released {n : Nat} {s t : State} (hr : s.rst = false)
    (h : Host.Core.run Sys2Proof.core n s = .next t) : t.rst = false := by
  induction n generalizing s with
  | zero =>
    cases h
    exact hr
  | succ n ih =>
    obtain ⟨u, hu, h⟩ := run_succ_inv h
    exact ih (step_keeps_released hr hu) h

/-- One step more changes nothing once the block waits. -/
theorem run_succ_of_waiting {n : Nat} {s u : State} (hr : s.rst = false)
    (h : Host.Core.run Sys2Proof.core n s = .next u) (hd : decode u.cmd = .waiting) :
    Host.Core.run Sys2Proof.core (n + 1) s = .next u := by
  rw [run_add h, run_succ_next (step_of_waiting (run_keeps_released hr h) hd), run_zero]

/-- Words sent after `m` steps or before them: a step that was waiting for them is made up for by one that waits at
the end. -/
theorem run_sendWords {m n : Nat} {s t u : State} {ws : List Word} (hr : s.rst = false)
    (h : Host.Core.run Sys2Proof.core m s = .next t)
    (h' : Host.Core.run Sys2Proof.core n (sendWords ws t) = .next u) (hd : decode u.cmd = .waiting) :
    Host.Core.run Sys2Proof.core (m + n) (sendWords ws s) = .next u := by
  induction m generalizing s with
  | zero =>
    cases h
    rwa [Nat.zero_add]
  | succ m ih =>
    obtain ⟨v, hv, h⟩ := run_succ_inv h
    rw [Nat.succ_add]
    by_cases hwait : decode s.cmd = .waiting
    · cases (step_of_waiting hr hwait).symm.trans hv
      exact run_succ_of_waiting ((sendWords_rst ws s).trans hr) (ih hr h) hd
    · obtain ⟨hstep, hrv⟩ := step_sendWords hr hwait hv ws
      rw [run_succ_next hstep]
      exact ih hrv h

/-- Settles O17: all the words at once are the first part and then the second, moved before the `m` steps. -/
theorem portTimingIsInvisible : Obligations.PortTimingIsInvisible := by
  intro s t u ws ws' m n hr h h' hd
  rw [sendWords_append hr]
  exact run_sendWords ((sendWords_rst ws s).trans hr) h h' hd

/-! ### Responses in order -/

theorem exec_appends_pair {i : Instr} {s t : State} (h : exec i s = .next t) :
    ∃ r0 r1 : Word, t.rsp = s.rsp ++ [r0, r1] ∧ r0.extractLsb' 24 8 = i.opc := by
  obtain ⟨u, e, m, d, rfl, -, hrsp, -⟩ := exec_next_inv h
  exact ⟨_, d, by rw [respond_rsp, hrsp], rsp0_opc ..⟩

/-- Settles O18, by induction on the commands. -/
theorem oneResponsePairPerCommand : Obligations.OneResponsePairPerCommand := by
  intro is
  induction is with
  | nil =>
    intro s t h
    cases h
    exact ⟨[], (List.append_nil _).symm, rfl⟩
  | cons i is ih =>
    intro s t h
    obtain ⟨u, hu, h⟩ := runCommands_cons_inv h
    obtain ⟨r0, r1, hpair, hopc⟩ := exec_appends_pair hu
    obtain ⟨rs, hrs, hopcs⟩ := ih u t h
    refine ⟨(r0, r1) :: rs, ?_, ?_⟩
    · rw [hrs, hpair, List.flatMap_cons, List.append_assoc]
    · rw [List.map_cons, List.map_cons, hopc, hopcs]

end Sys2Proof.Proofs
end

