-- ==== Sys2Proof/Proofs/BucketsAndFrames.lean ====
section
/-!
PROOFS. One bucket read and written (R41, R44), `ADD` and `QUERY` as their loops (R144 to R146), and what each command
leaves unchanged. The obligations `BucketAccess`, `SettingASetBitChangesNothing`, `AddRunsItsRounds`,
`QueryEarlyExitChangesNoValue`, `ConfigFrame`, `AddFrame` and `HashQueryFrame`.
-/

namespace Sys2Proof.Proofs
open Sys2Proof.Machine Sys2Proof.Claims

/-! ### One bucket -/

/-- A bucket read depends on `SIZE` and on what the array holds there. -/
theorem memRead_congr {s t : State} {x : Nat} (hsize : t.size = s.size) (hread : t.bits.read x = s.bits.read x) :
    memRead t x = memRead s x := by
  rw [memRead, memRead, hsize, hread]

theorem memRead_write_other {s : State} (hw : s.bits.wf) {a x : Nat} (hx : x ≠ a) (v : Byte) :
    memRead { s with bits := s.bits.write a v } x = memRead s x :=
  memRead_congr (s := s) rfl (by rw [Memory.read_write hw, if_neg hx.symm])

/-- Settles O32, from the read after a write to the same and to another bucket. -/
theorem bucketAccess : Obligations.BucketAccess := by
  refine fun s a v hw => ⟨fun ha => ?_, fun ha => ⟨memRead_of_ge ha, memWrite_of_ge ha v⟩⟩
  exact ⟨_, memWrite_of_lt ha v, memRead_write_same hw ha v, fun x hx => memRead_write_other hw hx v, rfl,
    Memory.write_wf hw a v⟩

/-- Writing back what was read leaves the array as it was, for it is in canonical form. -/
theorem write_read {m : Memory} (hw : m.wf) (a : Nat) : m.write a (m.read a) = m := by
  refine Memory.ext_read (Memory.write_wf hw a _) hw fun x => ?_
  rw [Memory.read_write hw]
  split
  · next hx => rw [hx]
  · rfl

theorem or8_mask_of_set {v : Byte} {b : Nat} (h : bucketBit v b = true) : or8 v (mask b) = v := by
  refine byte_ext fun x hx => ?_
  rw [bucketBit_or8_mask v b x hx]
  by_cases hxb : x = b
  · rw [hxb, h, Bool.true_or]
  · rw [decide_eq_false hxb, Bool.or_false]

theorem setBit_of_bitSet {s : State} {a b : Nat} (hw : s.bits.wf) (ha : a < s.size) (h : s.bitSet a b = true) :
    setBit s a b = .ok s := by
  rw [setBit_of_lt ha, or8_mask_of_set h, write_read hw]

theorem testBit_ok_inv {s : State} {a b : Nat} {m : Bool} (h : testBit s a b = .ok m) :
    a < s.size ∧ m = s.bitSet a b := by
  by_cases ha : a < s.size
  · rw [testBit_of_lt ha] at h
    exact ⟨ha, (Except.ok.inj h).symm⟩
  · rw [testBit_of_ge (Nat.le_of_not_lt ha)] at h
    cases h

/-- Settles O34, from `setBit_of_bitSet`. -/
theorem settingASetBitChangesNothing : Obligations.SettingASetBitChangesNothing := by
  intro s a b hw _ h
  obtain ⟨ha, hset⟩ := testBit_ok_inv h
  exact setBit_of_bitSet hw ha hset.symm

/-! ### `ADD` and `QUERY` as loops -/

theorem setBit_size {s t : State} {a b : Nat} (h : setBit s a b = .ok t) : t.size = s.size := by
  by_cases ha : a < s.size
  · rw [setBit_of_lt ha] at h
    cases h
    rfl
  · rw [setBit_of_ge (Nat.le_of_not_lt ha)] at h
    cases h

/-- The pairs may be computed before the first bit is set: setting a bit leaves `SIZE`. -/
theorem addLoop_eq_setBits (B : List Byte) (seed : Word) (s : State) (r : Nat) :
    addLoop B seed s r = setBits s ((chainFrom B seed r).map (indexPair s.size)) := by
  induction r generalizing seed s with
  | zero => rfl
  | succ r ih =>
    rw [chainFrom_succ, List.map_cons, setBits, addLoop, indexPair]
    cases h : setBit s (bucketIndex (hash32 B seed) s.size) (bitIndex (hash32 B seed)) with
    | error f => rfl
    | ok t =>
      rw [← setBit_size h]
      exact ih _ t

theorem queryLoop_eq_testBits (B : List Byte) (seed : Word) (s : State) (r : Nat) :
    queryLoop B seed s r = testBits s ((chainFrom B seed r).map (indexPair s.size)) := by
  induction r generalizing seed with
  | zero => rfl
  | succ r ih =>
    rw [chainFrom_succ, List.map_cons, testBits, queryLoop, indexPair]
    cases testBit s (bucketIndex (hash32 B seed) s.size) (bitIndex (hash32 B seed)) with
    | error f => rfl
    | ok m =>
      cases m with
      | false => rfl
      | true => exact ih _

/-- Settles O42: the loop sets the bits of the index pairs, one after the other. -/
theorem addRunsItsRounds : Obligations.AddRunsItsRounds := by
  intro B s hc
  rw [addLoop_eq_setBits, exec_add, execAdd_cfg B hc, indices, chain, seed0]
  cases h : setBits s ((chainFrom B 0 s.k.toNat).map (indexPair s.size)) with
  | error f => rfl
  | ok t =>
    have hct : t.configured = true := by rw [(setBits_ok_inv h).1, hc]
    rw [orFault_ok, respond_add t hct]

/-- Settles O45: the loop tests the bits of the index pairs, and in range the first clear one decides. -/
theorem queryEarlyExitChangesNoValue : Obligations.QueryEarlyExitChangesNoValue := by
  intro B s hc
  rw [queryLoop_eq_testBits]
  constructor
  · rw [exec_query, execQuery_cfg B hc, indices, chain, seed0]
    cases testBits s ((chainFrom B 0 s.k.toNat).map (indexPair s.size)) with
    | error f => rfl
    | ok m => rw [orFault_ok, respond_query s hc]
  · intro hn
    have hrange : ∀ q ∈ indices B s.k.toNat s.size, q.1 < s.size := fun q hq => (indices_lt hn hq).1
    exact (testBits_of_lt hrange).trans (by rw [indices, List.all_map]; rfl)

/-! ### Frames -/

/-- Every command appends to the response port and leaves the rest of the ports. -/
theorem exec_ports {i : Instr} {s t : State} (h : exec i s = .next t) :
    t.cmd = s.cmd ∧ t.rst = s.rst ∧ s.rsp <+: t.rsp := by
  obtain ⟨r0, r1, hrsp, -⟩ := exec_appends_pair h
  exact ⟨exec_keeps_cmd h, exec_keeps_rst h, hrsp ▸ List.prefix_append ..⟩

/-- A command that constructs no filter and adds no item leaves everything but the response port. -/
theorem exec_frame {i : Instr} {s t : State} (hc : constructs i = false) (hadd : ∀ p, i ≠ .add 0 p)
    (h : exec i s = .next t) : t = { s with rsp := t.rsp } := by
  obtain ⟨u, e, m, d, rfl, -, -, -, rfl | ⟨k, rs, rfl, hrs, -⟩ | ⟨p, hp, -⟩⟩ := exec_next_inv h
  · rfl
  · rw [constructs_config_of_le k hrs] at hc
    contradiction
  · exact absurd hp (hadd p)

/-- Settles O39: refused, the frame of every such command; executed, no bucket at or beyond the new size. -/
theorem configFrame : Obligations.ConfigFrame := by
  intro k len rs s t h
  obtain ⟨hcmd, hrst, hrsp⟩ := exec_ports h
  refine ⟨hcmd, hrst, hrsp, fun hc => ?_, fun _ a ha => memRead_of_ge ha⟩
  rw [exec_frame hc nofun h]
  exact ⟨rfl, rfl, rfl, rfl, fun _ => rfl⟩

/-- Settles O43: the array changes in the item's buckets only. -/
theorem addFrame : Obligations.AddFrame := by
  intro k B s t hw h
  obtain ⟨hcmd, hrst, hrsp⟩ := exec_ports h
  obtain ⟨u, e, m, d, rfl, -, -, -, rfl | ⟨k, rs, hi, -⟩ | ⟨p, hi, -, hset⟩⟩ := exec_next_inv h
  · exact ⟨rfl, rfl, rfl, hcmd, hrst, hrsp, fun _ _ => rfl⟩
  · cases hi
  · cases hi
    obtain ⟨bits, hbits, -, -, -, hread⟩ := setBits_of_lt (setBits_ok_inv hset).2
    cases hset.symm.trans hbits
    refine ⟨rfl, rfl, rfl, hcmd, hrst, hrsp, fun a ha => memRead_congr rfl (hread hw a ?_)⟩
    rwa [indices, List.map_map]

/-- Settles O46: neither command constructs a filter or adds an item. -/
theorem hashQueryFrame : Obligations.HashQueryFrame := by
  intro i s t hi h
  obtain ⟨-, -, hrsp⟩ := exec_ports h
  have ht : t = { s with rsp := t.rsp } := by
    obtain ⟨k, seed, B, rfl⟩ | ⟨k, B, rfl⟩ := hi
    · exact exec_frame (i := .hash k seed B) rfl nofun h
    · exact exec_frame (i := .query k B) rfl nofun h
  exact ⟨ht, hrsp, fun a => by rw [ht]; rfl⟩

end Sys2Proof.Proofs
end

