-- ==== Sys2Proof/Proofs/FilterLaws.lean ====
section
/-!
PROOFS. The laws of the filter (section 5 of 42_filter_ops.md): set bits stay set, so nothing added is ever missed;
adding twice is adding once; and adding a list of items leaves the union of their bits, whatever the order. The
obligations `SetBitsStaySet`, `NoFalseNegatives`, `AddIsIdempotent`, `AddsLeaveTheUnion` and `AddsCommute`.
-/

namespace Sys2Proof.Proofs
open Sys2Proof.Machine Sys2Proof.Claims

/-! ### Set bits stay set -/

/-- Settles O52: waiting and a refusal leave the array, and no command but a constructing `CONFIG` clears a bit. -/
theorem setBitsStaySet : Obligations.SetBitsStaySet := by
  intro s t hw hr h hc a b hset
  obtain ⟨hheld, -⟩ | ⟨-, -, hstep⟩ | ⟨opc, rest, -, -, hstep⟩ | ⟨i, rest, -, hd, hstep⟩ := step_cases s
  · rw [hr] at hheld
    contradiction
  · cases hstep.symm.trans h
    exact hset
  · cases hstep.symm.trans h
    exact hset
  · exact exec_keeps_set_bit (s := consume rest s) hw (hc i rest hd) (hstep.symm.trans h) (lt_of_bitSet hset) hset

theorem setBits_keeps_wf {s t : State} {ps : List (Nat × Nat)} (hw : s.bits.wf) (h : setBits s ps = .ok t) :
    t.bits.wf := by
  obtain ⟨m, hm, hwf, -⟩ := setBits_of_lt (setBits_ok_inv h).2
  cases h.symm.trans hm
  exact hwf hw

theorem exec_keeps_wf {i : Instr} {s t : State} (hw : s.bits.wf) (h : exec i s = .next t) : t.bits.wf := by
  obtain ⟨u, e, m, d, rfl, -, -, -, rfl | ⟨k, rs, -, -, rfl⟩ | ⟨p, -, -, hset⟩⟩ := exec_next_inv h
  · exact hw
  · exact Memory.zeroed_wf
  · rw [respond_bits]
    exact setBits_keeps_wf hw hset

theorem runCommands_keeps_set_bit {is : List Instr} {s t : State} {a b : Nat} (hw : s.bits.wf)
    (hc : ∀ i ∈ is, constructs i = false) (h : runCommands is s = .next t) (hset : s.bitSet a b = true) :
    t.bitSet a b = true :=
  (runCommands_keeps (P := fun s => s.bits.wf ∧ s.bitSet a b = true)
    (fun i hi _ _ hs hexec => ⟨exec_keeps_wf hs.1 hexec,
      exec_keeps_set_bit hs.1 (hc i hi) hexec (lt_of_bitSet hs.2) hs.2⟩) ⟨hw, hset⟩ h).2

/-! ### What an `ADD` leaves -/

theorem indices_bit_lt {B : List Byte} {r n : Nat} {q : Nat × Nat} (hq : q ∈ indices B r n) : q.2 < 8 := by
  obtain ⟨h, -, rfl⟩ := List.mem_map.1 hq
  exact bitIndex_lt h

/-- Every bit of the list is set once `setBits` has run. -/
theorem setBits_sets {s t : State} {ps : List (Nat × Nat)} (hw : s.bits.wf) (h : setBits s ps = .ok t)
    {q : Nat × Nat} (hq : q ∈ ps) (hb : q.2 < 8) : t.bitSet q.1 q.2 = true := by
  obtain ⟨m, hm, -, -, hbit, -⟩ := setBits_of_lt (setBits_ok_inv h).2
  cases h.symm.trans hm
  exact (hbit hw q.1 q.2 hb).trans (by rw [decide_eq_true hq, Bool.or_true])

/-- On a filter, `ADD` has met every bucket of the item and left every one of its bits set. -/
theorem exec_add_sets {B : List Byte} {s t : State} (hw : s.bits.wf) (hc : s.configured = true)
    (h : exec (.add 0 B) s = .next t) :
    ∀ q ∈ indices B t.k.toNat t.size, q.1 < t.size ∧ t.bitSet q.1 q.2 = true := by
  obtain ⟨-, hk, hsize, -⟩ := addFrame 0 B s t hw h
  rw [hk, hsize]
  rw [exec_add, execAdd_cfg B hc] at h
  obtain ⟨u, hu, rfl⟩ := orFault_next_inv h
  exact fun q hq => ⟨(setBits_ok_inv hu).2 q hq, setBits_sets hw hu hq (indices_bit_lt hq)⟩

/-! ### No false negatives -/

/-- `QUERY` of an item all of whose bits are set. -/
theorem exec_query_of_set {B : List Byte} {s : State} (hc : s.configured = true) (hn : 1 ≤ s.size)
    (hset : ∀ q ∈ indices B s.k.toNat s.size, s.bitSet q.1 q.2 = true) :
    exec (.query 0 B) s = .next { s with rsp := s.rsp ++ [0x04000300, 0] } := by
  have hword : answer 0x04 true true 0x00 = 0x04000300 := by decide
  rw [exec_query, execQuery_ok B hc hn, List.all_eq_true.2 hset, respond_query s hc, hword]

/-- Settles O51: the bits the `ADD` set stay set, and `K` and `SIZE` stay, so the `QUERY` tests the same bits. -/
theorem noFalseNegatives : Obligations.NoFalseNegatives := by
  intro B is s hs hc hcons
  obtain ⟨t, ht⟩ := exec_completes hs (.add 0 B)
  have hst := exec_keeps_inv hs ht
  have hct := exec_keeps_configured ht hc
  obtain ⟨u, hu⟩ := runCommands_completes (is := is) hst
  obtain ⟨hk, hsize⟩ := runCommands_keeps_k_size hcons hu
  have hcu : u.configured = true :=
    runCommands_keeps (P := fun s => s.configured = true)
      (fun _ _ _ _ hconf hexec => exec_keeps_configured hexec hconf) hct hu
  refine ⟨t, u, ht, hu, exec_query_of_set hcu (hsize ▸ (hst.size_legal hct).2.1) fun q hq => ?_⟩
  rw [hk, hsize] at hq
  exact runCommands_keeps_set_bit hst.bits_wf hcons hu (exec_add_sets hs.bits_wf hc ht q hq).2

/-! ### Idempotence -/

theorem setBits_of_bitSet {s : State} {ps : List (Nat × Nat)} (hw : s.bits.wf)
    (h : ∀ q ∈ ps, q.1 < s.size ∧ s.bitSet q.1 q.2 = true) : setBits s ps = .ok s := by
  induction ps with
  | nil => rfl
  | cons q ps ih =>
    obtain ⟨⟨hlt, hset⟩, hps⟩ := List.forall_mem_cons.1 h
    rw [setBits, setBit_of_bitSet hw hlt hset]
    exact ih hps

/-- Settles O53: refused, an `ADD` changes nothing else; executed, the second one meets only bits that are set. -/
theorem addIsIdempotent : Obligations.AddIsIdempotent := by
  intro k B s t u hw h h'
  obtain ⟨v, e, m, d, rfl, -, -, -, rfl | ⟨k, rs, hi, -⟩ | ⟨p, hi, hct, hset⟩⟩ := exec_next_inv h'
  · rfl
  · cases hi
  · cases hi
    obtain ⟨hconf, -⟩ := addFrame 0 B s t hw h
    have hsame := setBits_of_bitSet (exec_keeps_wf hw h) (exec_add_sets hw (hconf.symm.trans hct) h)
    cases hsame.symm.trans hset
    rfl

/-! ### Union -/

theorem memory_ext_bits {m m' : Memory} (hw : m.wf) (hw' : m'.wf)
    (h : ∀ x y, y < 8 → bucketBit (m.read x) y = bucketBit (m'.read x) y) : m = m' :=
  Memory.ext_read hw hw' fun x => byte_ext fun y hy => h x y hy

/-- The items' bits: those in some item's index pairs. -/
def inSomeItem (Bs : List (List Byte)) (r n x y : Nat) : Bool := Bs.any fun B => decide ((x, y) ∈ indices B r n)

/-- It depends on the set of items alone. -/
theorem inSomeItem_congr {Bs Cs : List (List Byte)} (h : ∀ B, B ∈ Bs ↔ B ∈ Cs) (r n x y : Nat) :
    inSomeItem Bs r n x y = inSomeItem Cs r n x y := by
  rw [Bool.eq_iff_iff]
  simp only [inSomeItem, List.any_eq_true, h]

/-- A run of `ADD`s: each is acknowledged, and the array gets the bits of all the items. -/
theorem runCommands_adds (Bs : List (List Byte)) {s : State} (hc : s.configured = true) (hn : 1 ≤ s.size)
    (hw : s.bits.wf) :
    ∃ m : Memory, m.wf ∧
      runCommands (Bs.map (Instr.add 0)) s =
        .next { s with bits := m, rsp := s.rsp ++ (List.replicate Bs.length [0x03000200, 0]).flatten } ∧
      ∀ x y, y < 8 → bucketBit (m.read x) y = (s.bitSet x y || inSomeItem Bs s.k.toNat s.size x y) := by
  induction Bs generalizing s with
  | nil => exact ⟨s.bits, hw, by simp [runCommands], fun x y _ => (Bool.or_false _).symm⟩
  | cons B Bs ih =>
    obtain ⟨m₁, hadd, hwf, -, hbit, -⟩ := execAdd_ok B hc hn
    have hexec : exec (.add 0 B) s = .next { s with bits := m₁, rsp := s.rsp ++ [0x03000200, 0] } := by
      rw [exec_add, hadd, respond_add { s with bits := m₁ } hc]
    obtain ⟨m, hm, hrun, hbits⟩ := @ih { s with bits := m₁, rsp := s.rsp ++ [0x03000200, 0] } hc hn (hwf hw)
    refine ⟨m, hm, ?_, fun x y hy => ?_⟩
    · rw [List.map_cons, runCommands_cons_next hexec, hrun, List.length_cons, List.replicate_succ, List.flatten_cons,
        List.append_assoc]
    · rw [hbits x y hy, State.bitSet, hbit hw x y hy, inSomeItem, inSomeItem, List.any_cons, Bool.or_assoc]

/-- Settles O55, from `runCommands_adds` and the extensionality of canonical arrays. -/
theorem addsLeaveTheUnion : Obligations.AddsLeaveTheUnion := by
  intro Bs s hs hc
  have hn := (hs.size_legal hc).2.1
  obtain ⟨m, hm, hrun, hbits⟩ := runCommands_adds Bs hc hn hs.bits_wf
  refine ⟨_, hrun, rfl, fun x y _ hy => hbits x y (by omega), fun Cs u hsame hu => ?_⟩
  obtain ⟨m', hm', hrun', hbits'⟩ := runCommands_adds Cs hc hn hs.bits_wf
  cases hrun'.symm.trans hu
  refine memory_ext_bits hm' hm fun x y hy => ?_
  rw [hbits x y hy, hbits' x y hy, inSomeItem_congr hsame]

/-- Settles O54: two lists of the same two items, so the same array, and as many responses. -/
theorem addsCommute : Obligations.AddsCommute := by
  intro B C s hs hc
  have hn := (hs.size_legal hc).2.1
  obtain ⟨m, hm, hrun, hbits⟩ := runCommands_adds [B, C] hc hn hs.bits_wf
  obtain ⟨m', hm', hrun', hbits'⟩ := runCommands_adds [C, B] hc hn hs.bits_wf
  have hsame : ∀ D, D ∈ [B, C] ↔ D ∈ [C, B] := fun _ => (List.Perm.swap C B []).mem_iff
  obtain rfl : m = m' := memory_ext_bits hm hm' fun x y hy => by
    rw [hbits x y hy, hbits' x y hy, inSomeItem_congr hsame]
  exact ⟨_, hrun, hrun'⟩

end Sys2Proof.Proofs
end

