-- ==== Sys2Proof/Proofs/Unconfigured.lean ====
section
/-!
PROOFS. The block before its first `CONFIG` (R22, R29): exactly a constructing `CONFIG` sets `CONFIGURED`, and until one
runs `K`, `SIZE` and the array are not observed. The obligations `ConfiguredFlagLife` and
`UnconfiguredStateIsUnobservable`.
-/

namespace Sys2Proof.Proofs
open Sys2Proof.Machine Sys2Proof.Claims

/-! ### The life of `CONFIGURED` -/

theorem exec_leaves_configured {i : Instr} {s t : State} (hi : constructs i = false) (h : exec i s = .next t) :
    t.configured = s.configured := by
  obtain ⟨u, e, m, d, rfl, -, -, -, rfl | ⟨k, rs, rfl, hrs, -⟩ | ⟨p, -, -, hset⟩⟩ := exec_next_inv h
  · rfl
  · rw [constructs_config_of_le k hrs] at hi
    contradiction
  · rw [respond_configured, (setBits_ok_inv hset).1]

theorem exec_configured_iff {i : Instr} {s t : State} (h : exec i s = .next t) :
    t.configured = true ↔ s.configured = true ∨ constructs i = true := by
  cases hi : constructs i with
  | true =>
    obtain ⟨k, rs, rfl, hrs⟩ := constructs_iff.1 hi
    cases (execConfig_ok k hrs s).symm.trans h
    exact iff_of_true rfl (.inr rfl)
  | false =>
    rw [exec_leaves_configured hi h]
    simp only [Bool.false_eq_true, or_false]

/-- Settles O57: only a command could change `CONFIGURED`, and `exec_configured_iff` says which. -/
theorem configuredFlagLife : Obligations.ConfiguredFlagLife := by
  intro s t hr h
  obtain ⟨hheld, -⟩ | ⟨-, hd, hstep⟩ | ⟨opc, rest, -, hd, hstep⟩ | ⟨i, rest, -, hd, hstep⟩ := step_cases s
  · rw [hr] at hheld
    contradiction
  · cases hstep.symm.trans h
    simp only [hd, reduceCtorEq, false_and, exists_false, or_false]
  · cases hstep.symm.trans h
    simp only [hd, reduceCtorEq, false_and, exists_false, or_false, refuseReserved_configured]
  · rw [exec_configured_iff (hstep.symm.trans h), hd, consume_configured]
    refine or_congr_right ⟨fun hi => ⟨i, rest, rfl, hi⟩, ?_⟩
    rintro ⟨j, r, hj, hi⟩
    cases hj
    exact hi

/-! ### Two unconfigured blocks -/

/-- Two blocks out of reset that hold no filter and have the same words at their ports. -/
structure AlikeUnconfigured (s s' : State) : Prop where
  unconfigured : s.configured = false
  unconfigured' : s'.configured = false
  cmd : s.cmd = s'.cmd
  rsp : s.rsp = s'.rsp
  released : s.rst = false
  released' : s'.rst = false

namespace AlikeUnconfigured
variable {s s' : State}

theorem respond_alike (h : AlikeUnconfigured s s') (opc : BitVec 8) (e : Err) (m : Bool) (d : Word) :
    AlikeUnconfigured (respond opc e m d s) (respond opc e m d s') :=
  ⟨h.unconfigured, h.unconfigured', h.cmd, by rw [respond_rsp, respond_rsp, h.rsp, h.unconfigured, h.unconfigured'],
    h.released, h.released'⟩

theorem consume_alike (h : AlikeUnconfigured s s') (rest : List Word) :
    AlikeUnconfigured (consume rest s) (consume rest s') :=
  ⟨h.unconfigured, h.unconfigured', rfl, h.rsp, h.released, h.released'⟩

/-- A filter constructed from either is the same whole state. -/
theorem construct_eq (h : AlikeUnconfigured s s') (k : BitVec 8) (size : Nat) (bits : Memory) :
    ({ s with k := k, size := size, bits := bits, configured := true } : State) =
      { s' with k := k, size := size, bits := bits, configured := true } := by
  rw [h.cmd, h.rsp, h.released, h.released']

/-- A command without a filter: what is answered is the same, and afterwards the blocks are alike or equal. -/
theorem exec_alike (h : AlikeUnconfigured s s') (i : Instr) :
    ∃ t t', exec i s = .next t ∧ exec i s' = .next t' ∧ (t = t' ∨ AlikeUnconfigured t t') := by
  cases i with
  | config k len rs =>
    by_cases hlen : len = 0
    · subst hlen
      by_cases hsize : normSize rs ≤ Config.maxBuckets
      · exact ⟨_, _, execConfig_ok k hsize s, execConfig_ok k hsize s', .inl (by rw [h.construct_eq])⟩
      · have hcap := Nat.lt_of_not_le hsize
        exact ⟨_, _, execConfig_capacity k hcap s, execConfig_capacity k hcap s', .inr (h.respond_alike ..)⟩
    · exact ⟨_, _, execConfig_field hlen rs s, execConfig_field hlen rs s', .inr (h.respond_alike ..)⟩
  | hash k seed p =>
    by_cases hk : k = 0
    · subst hk
      exact ⟨_, _, execHash_ok seed p s, execHash_ok seed p s', .inr (h.respond_alike ..)⟩
    · exact ⟨_, _, execHash_field hk seed p s, execHash_field hk seed p s', .inr (h.respond_alike ..)⟩
  | add k p =>
    by_cases hk : k = 0
    · subst hk
      exact ⟨_, _, execAdd_noCfg p h.unconfigured, execAdd_noCfg p h.unconfigured', .inr (h.respond_alike ..)⟩
    · exact ⟨_, _, execAdd_field hk p s, execAdd_field hk p s', .inr (h.respond_alike ..)⟩
  | query k p =>
    by_cases hk : k = 0
    · subst hk
      exact ⟨_, _, execQuery_noCfg p h.unconfigured, execQuery_noCfg p h.unconfigured', .inr (h.respond_alike ..)⟩
    · exact ⟨_, _, execQuery_field hk p s, execQuery_field hk p s', .inr (h.respond_alike ..)⟩

theorem step_alike (h : AlikeUnconfigured s s') :
    ∃ t t', step s = .next t ∧ step s' = .next t' ∧ (t = t' ∨ AlikeUnconfigured t t') := by
  cases hd : decode s.cmd with
  | waiting =>
    exact ⟨s, s', step_of_waiting h.released hd, step_of_waiting h.released' (h.cmd ▸ hd), .inr h⟩
  | reserved opc rest =>
    exact ⟨_, _, step_of_reserved h.released hd, step_of_reserved h.released' (h.cmd ▸ hd),
      .inr ((h.consume_alike rest).respond_alike ..)⟩
  | command i rest =>
    rw [step_of_command h.released hd, step_of_command h.released' (h.cmd ▸ hd)]
    exact (h.consume_alike rest).exec_alike i

/-- Any number of steps, by induction: once the blocks are equal they stay so. -/
theorem run_alike (h : AlikeUnconfigured s s') {n : Nat} {t : State}
    (hrun : Host.Core.run Sys2Proof.core n s = .next t) :
    ∃ t', Host.Core.run Sys2Proof.core n s' = .next t' ∧ (t = t' ∨ AlikeUnconfigured t t') := by
  induction n generalizing s s' with
  | zero =>
    cases hrun
    exact ⟨s', rfl, .inr h⟩
  | succ n ih =>
    obtain ⟨u, u', hu, hu', hnext⟩ := h.step_alike
    rw [run_succ_next hu] at hrun
    rw [run_succ_next hu']
    obtain rfl | hnext := hnext
    · exact ⟨t, hrun, .inl rfl⟩
    · exact ih hnext hrun

end AlikeUnconfigured

/-- Settles O58: the blocks stay alike until a filter is constructed, and are equal from then on. -/
theorem unconfiguredStateIsUnobservable : Obligations.UnconfiguredStateIsUnobservable := by
  intro n s s' t hc hc' hcmd hrsp hr hr' hrun
  obtain ⟨t', hrun', rfl | hend⟩ := AlikeUnconfigured.run_alike ⟨hc, hc', hcmd, hrsp, hr, hr'⟩ hrun
  · exact ⟨t, hrun', rfl, rfl, rfl, fun _ => rfl⟩
  · exact ⟨t', hrun', hend.rsp, hend.cmd, hend.unconfigured.trans hend.unconfigured'.symm,
      fun hct => absurd (hend.unconfigured.symm.trans hct) Bool.false_ne_true⟩

end Sys2Proof.Proofs
end

