-- ==== Sys2Proof/Proofs/RunResult.lean ====
section
/-!
PROOFS. The result of a run of items (R210): what one item answers and leaves, that a reset cuts a run, and that a host
performing the items at the ports takes exactly the result (R60, R200, R208). The obligations
`RunResultIsResponsesAndFinalState` and `PortsShowTheRunsResult`.
-/

namespace Sys2Proof.Proofs
open Sys2Proof.Machine Sys2Proof.Claims

/-! ### One item -/

theorem inv_setRsp {s : State} (h : s.Inv) (w : List Word) : ({ s with rsp := w } : State).Inv :=
  ⟨h.bits_wf, h.bits_below, h.unconfigured, h.size_legal⟩

theorem runItem_completes {s : State} (hs : s.Inv) (x : RunItem) : ∃ t, runItem x s = .next t ∧ t.Inv := by
  cases x with
  | command i =>
    obtain ⟨t, ht⟩ := exec_completes hs i
    exact ⟨t, ht, exec_keeps_inv hs ht⟩
  | reserved hdr => exact ⟨_, rfl, inv_respond hs ..⟩
  | reset => exact ⟨_, rfl, reset_inv⟩

/-- What an item leaves on the empty response port: the one response of a command or a refused header, none of a
reset. -/
theorem runItem_responses {x : RunItem} {s t : State} (h : runItem x { s with rsp := [] } = .next t) :
    ∃ rs : List (Word × Word), t.rsp = responseWords rs ∧ rs.map (fun p => p.1.extractLsb' 24 8) = itemOpc x := by
  cases x with
  | command i =>
    obtain ⟨r0, r1, hrsp, hopc⟩ := exec_appends_pair h
    exact ⟨[(r0, r1)], hrsp, congrArg (fun o => [o]) hopc⟩
  | reserved hdr =>
    cases h
    exact ⟨[(_, 0)], rfl, congrArg (fun o => [o]) (rsp0_opc ..)⟩
  | reset =>
    cases h
    exact ⟨[], rfl, rfl⟩

/-! ### A run has a result -/

theorem runItems_completes (xs : List RunItem) {s : State} (hs : s.Inv) :
    ∃ r, runItems xs s = .next r ∧ r.responses.map (fun p => p.1.extractLsb' 24 8) = xs.flatMap itemOpc := by
  induction xs generalizing s with
  | nil => exact ⟨_, rfl, rfl⟩
  | cons x xs ih =>
    obtain ⟨t, ht, hst⟩ := runItem_completes (inv_setRsp hs []) x
    obtain ⟨rs, hrs, hopc⟩ := runItem_responses ht
    obtain ⟨r, hr, hopcs⟩ := ih hst
    refine ⟨_, runItems_cons_next ht hr, ?_⟩
    rw [hrs, pairWords_responseWords, List.map_append, hopc, hopcs, List.flatMap_cons]

/-- The result of a run of one command is that command's response and final state, whatever was on the port. -/
theorem runItems_command {i : Instr} {s : State} {r : RunResult} (h : runItems [.command i] s = .next r) :
    ∃ t, exec i s = .next t ∧ r.final = finalOf t ∧ t.rsp = s.rsp ++ responseWords r.responses := by
  obtain ⟨t, q, ht, hq, rfl⟩ := runItems_cons_inv h
  cases hq
  obtain ⟨rs, hrs, -⟩ := runItem_responses ht
  have hexec := exec_setRsp i s s.rsp
  rw [show exec i { s with rsp := [] } = .next t from ht] at hexec
  refine ⟨_, hexec, (finalOf_setRsp t _).symm, ?_⟩
  rw [hrs, pairWords_responseWords, List.append_nil]

/-- A reset cuts a run in two; the second part runs from the state after reset. -/
theorem runItems_append_reset {xs ys : List RunItem} {s : State} {r : RunResult}
    (h : runItems (xs ++ .reset :: ys) s = .next r) :
    ∃ before after, runItems xs s = .next before ∧ runItems ys State.reset = .next after ∧
      r.responses = before.responses ++ after.responses ∧ r.final = after.final := by
  induction xs generalizing s r with
  | nil =>
    obtain ⟨t, q, ht, hq, rfl⟩ := runItems_cons_inv h
    cases ht
    exact ⟨_, q, rfl, hq, rfl, rfl⟩
  | cons x xs ih =>
    obtain ⟨t, q, ht, hq, rfl⟩ := runItems_cons_inv h
    obtain ⟨before, after, hbefore, hafter, hresp, hfinal⟩ := ih hq
    exact ⟨_, after, runItems_cons_next ht hbefore, hafter, by rw [hresp, List.append_assoc], hfinal⟩

/-- Settles O59, from the three lemmas on runs. -/
theorem runResultIsResponsesAndFinalState : Obligations.RunResultIsResponsesAndFinalState := by
  refine ⟨fun xs s hs => ?_, fun _ _ _ _ => runItems_append_reset⟩
  obtain ⟨r, hr, hopcs⟩ := runItems_completes xs hs
  refine ⟨r, hr, hopcs, ?_⟩
  rintro i rfl
  exact runItems_command hr

/-! ### A run at the ports -/

/-- A block out of reset with empty ports, as a host finds it between two items. -/
structure IdleBlock (s : State) : Prop where
  inv : s.Inv
  released : s.rst = false
  cmd : s.cmd = []
  rsp : s.rsp = []

/-- What the next item would find on the response port makes no difference to a run. -/
theorem runItems_setRsp (xs : List RunItem) (s : State) (w : List Word) :
    runItems xs { s with rsp := w } = runItems xs s := by
  cases xs <;> rfl

/-- A host that takes two words off a port holding one response has it, and leaves the port empty. -/
theorem runTaken_two {t : State} {r0 r1 : Word} (h : t.rsp = [r0, r1]) :
    runTaken [.host .take, .host .take] t = .next ([r0, r1], { t with rsp := [] }) := by
  simp only [runTaken, hostMove, takenBy, takeWord, h, List.head?_cons, List.tail_cons, Option.toList_some,
    List.append_nil, List.cons_append, List.nil_append]

/-- Sending the words of an item to an idle block, letting it step and taking two words: the host has the item's
response, and the block is idle again. -/
theorem runTaken_sendStepTake {x : RunItem} {s : State} {ws : List Word} (hs : IdleBlock s) (hx : x ≠ .reset)
    (hstep : step { s with cmd := ws } = runItem x s) :
    ∃ t, runItem x s = .next t ∧
      runTaken [.host (.send ws), .block, .host .take, .host .take] s = .next (t.rsp, { t with rsp := [] }) ∧
      IdleBlock { t with rsp := [] } := by
  obtain ⟨t, ht, hst⟩ := runItem_completes hs.inv x
  obtain ⟨r0, r1, hrsp, hcmd, hrst⟩ := runItem_next_inv hx (by rw [← ht, ← hs.rsp])
  refine ⟨t, ht, ?_, inv_setRsp hst [], hrst.trans hs.released, hcmd.trans hs.cmd, rfl⟩
  have hsend : hostMove (.send ws) s = { s with cmd := ws } := by
    rw [hostMove, sendWords_of_released hs.released, hs.cmd, List.nil_append]
  have htake := (runTaken_block (hstep.trans ht)).trans (runTaken_two hrsp)
  rw [← hsend] at htake
  rw [hrsp]
  exact runTaken_host htake

/-- Performing one item at the ports: the host takes what the item leaves on the port, and the block is idle again. -/
theorem runTaken_performItem {x : RunItem} {s : State} (hx : x.wellFormed) (hs : IdleBlock s) :
    ∃ t, runItem x s = .next t ∧ runTaken (performItem x) s = .next (t.rsp, { t with rsp := [] }) ∧
      IdleBlock { t with rsp := [] } := by
  have hport : ({ s with cmd := [] } : State) = s := by rw [← hs.cmd]
  cases x with
  | command i =>
    have hstep := step_encode hx hs.released []
    rw [List.append_nil, hport] at hstep
    exact runTaken_sendStepTake hs nofun hstep
  | reserved hdr =>
    have hstep := step_of_reserved (s := { s with cmd := [hdr] }) hs.released (decode_reserved hx [])
    rw [refuseReserved, show consume [] { s with cmd := [hdr] } = s from hport] at hstep
    exact runTaken_sendStepTake hs nofun hstep
  | reset => exact ⟨_, rfl, rfl, reset_inv, rfl, rfl, rfl⟩

/-- Performing a run, item by item. -/
theorem runTaken_performItems {xs : List RunItem} {s : State} (hxs : ∀ x ∈ xs, x.wellFormed) (hs : IdleBlock s) :
    ∃ r t, runItems xs s = .next r ∧ runTaken (performItems xs) s = .next (responseWords r.responses, t) ∧
      finalOf t = r.final ∧ IdleBlock t := by
  induction xs generalizing s with
  | nil => exact ⟨_, s, rfl, rfl, rfl, hs⟩
  | cons x xs ih =>
    obtain ⟨hx, hxs⟩ := List.forall_mem_cons.1 hxs
    obtain ⟨t, ht, htaken, hnext⟩ := runTaken_performItem hx hs
    obtain ⟨r, u, hr, hrest, hend⟩ := ih hxs hnext
    rw [runItems_setRsp] at hr
    have hport : runItem x { s with rsp := [] } = .next t := by rw [← ht, ← hs.rsp]
    obtain ⟨rs, hrs, -⟩ := runItem_responses hport
    refine ⟨_, u, runItems_cons_next hport hr, ?_, hend⟩
    rw [performItems, List.flatMap_cons, ← performItems, runTaken_append htaken hrest, hrs, pairWords_responseWords,
      responseWords_append]

/-- Settles O60: the run performed from an idle block, which it leaves idle. -/
theorem portsShowTheRunsResult : Obligations.PortsShowTheRunsResult := by
  intro xs s hxs hs hr hcmd hrsp
  obtain ⟨r, t, hrun, htaken, hfinal, ht⟩ := runTaken_performItems hxs ⟨hs, hr, hcmd, hrsp⟩
  exact ⟨r, t, hrun, htaken, hfinal, ht.cmd, ht.rsp, ht.released⟩

end Sys2Proof.Proofs
end

