-- ==== Sys2Proof/Proofs/HashBits.lean ====
section
/-!
PROOFS. What the spec derives about the hash (sections 3 to 5 of 40_hash_mixer.md): the top bits of a finalised value,
the corner values, the bijection `mul32(_, M)`, the chunk mix against a logical shift, and the 4-byte helpers. The
obligations `HashBit31IsClear`, `HashCornerValues`, `MultiplierIsABijection`, `MixTellsShiftsApart` and
`ByteHelpersInvert`.
-/

namespace Sys2Proof.Proofs
open Sys2Proof.Machine Sys2Proof.Claims

/-! ### The top bits of a hash -/

/-- From bit 17 on, the arithmetic shift by 15 of the finalisation only repeats bit 31. -/
theorem hashFin_getLsbD (h : Word) {i : Nat} (h17 : 17 ≤ i) (hi : i < 32) :
    (hashFin h).getLsbD i = ((mul32 (xor32 h (asr32 h 13)) 0x5bd1e995).getLsbD i ^^
      (mul32 (xor32 h (asr32 h 13)) 0x5bd1e995).getLsbD 31) := by
  rw [hashFin, xor32_getLsbD, shift1, shift2, mulM, asr32_getLsbD _ (by decide) hi, if_neg (by omega)]

theorem hash32_bit31 (B : List Byte) (seed : Word) : (hash32 B seed).getLsbD 31 = false := by
  rw [hash32, hashFin_getLsbD _ (by decide) (by decide), Bool.xor_self]

theorem hash32_toNat_lt (B : List Byte) (seed : Word) : (hash32 B seed).toNat < 2 ^ 31 := by
  have hmsb : (hash32 B seed).msb = false := (BitVec.msb_eq_getLsbD_last _).trans (hash32_bit31 B seed)
  have := BitVec.msb_eq_false_iff_two_mul_lt.1 hmsb
  omega

theorem hash32_toInt (B : List Byte) (seed : Word) : (hash32 B seed).toInt = (hash32 B seed).toNat :=
  BitVec.toInt_eq_toNat_of_msb ((BitVec.msb_eq_getLsbD_last _).trans (hash32_bit31 B seed))

/-- Settles O22, from the bits of a finalised value; the hash is one, by its form by offset. -/
theorem hashBit31IsClear : Obligations.HashBit31IsClear := by
  refine ⟨fun B seed => ⟨hash32_bit31 B seed, hash32_toInt B seed, hash32_toNat_lt B seed⟩,
    fun h _ => hashFin_getLsbD h, fun B seed _ h17 hi => ?_⟩
  rw [hash32_eq_hashAt, hashAt, ← hashFin_eq_finAt]
  exact hashFin_getLsbD _ h17 hi

/-- Settles O23: with no bytes the hash is the finalised seed; the rest by running the model. -/
theorem hashCornerValues : Obligations.HashCornerValues :=
  ⟨by decide, fun seed => (hash32_nil seed).trans (hashFin_eq_finAt seed), by decide, by decide, by decide⟩

/-! ### The multiplier (R100) -/

/-- The inverse of `M` modulo 2^32; there is one because `M` is odd. -/
def mulMInv : Word := 0xe59b19bd

theorem mulMInv_mul_mulM : mulMInv * mulM = 1 := by decide

theorem mulMInv_mul_mul32 (a : Word) : mulMInv * mul32 a mulM = a := by
  rw [mul32, ← BitVec.mul_assoc, mulMInv_mul_mulM, one_mul]

theorem mul32_mulMInv_mul (a : Word) : mul32 (mulMInv * a) mulM = a := by
  rw [mul32, ← BitVec.mul_assoc, BitVec.mul_comm mulM, mulMInv_mul_mulM, one_mul]

/-- Settles O25: the product with the inverse of `M` undoes the product with `M`. -/
theorem multiplierIsABijection : Obligations.MultiplierIsABijection :=
  Function.bijective_iff_has_inverse.2 ⟨(mulMInv * ·), mulMInv_mul_mul32, mul32_mulMInv_mul⟩

/-! ### The chunk mix and the kind of its shift -/

theorem asr32_24_eq_ushiftRight_iff {a : Word} : asr32 a 24 = a >>> 24 ↔ a.getLsbD 31 = false := by
  refine ⟨fun h => Bool.eq_false_iff.2 fun h31 => ?_, fun h => asr32_eq_ushiftRight h 24⟩
  exact asr32_24_ne_ushiftRight h31 (i := 8) (by decide) (by decide) (by rw [h])

/-- Settles O24: the last product and the xor are injective, so the mixes differ exactly when the shifts do. -/
theorem mixTellsShiftsApart : Obligations.MixTellsShiftsApart := by
  intro k0
  have hmul (x y : Word) : 0x5bd1e995#32 * x = 0x5bd1e995#32 * y ↔ x = y := multiplierIsABijection.1.eq_iff
  rw [mixK_eq, Ne, hmul, BitVec.xor_right_inj, ← asr32, asr32_24_eq_ushiftRight_iff, Bool.not_eq_false]

/-! ### The 4-byte helpers (R99) -/

theorem dec32_enc32 (w : Word) :
    dec32 (w.extractLsb' 0 8) (w.extractLsb' 8 8) (w.extractLsb' 16 8) (w.extractLsb' 24 8) = w := by
  rw [dec32, BitVec.extractLsb'_append_extractLsb'_eq_extractLsb' (show 24 = 16 + 8 from rfl),
    BitVec.extractLsb'_append_extractLsb'_eq_extractLsb' (show 16 = 8 + 8 from rfl),
    BitVec.extractLsb'_append_extractLsb'_eq_extractLsb' (show 8 = 0 + 8 from rfl)]
  exact BitVec.extractLsb'_eq_self

theorem wordAt_eq_dec32 (B : List Byte) (i : Nat) :
    dec32 (byteAt B i) (byteAt B (i + 1)) (byteAt B (i + 2)) (byteAt B (i + 3)) = wordAt B i :=
  (wordAt_cons_four (byteAt B i) (byteAt B (i + 1)) (byteAt B (i + 2)) (byteAt B (i + 3)) []).symm

/-- Settles O26: the two helpers lane by lane, and R92's shifts. -/
theorem byteHelpersInvert : Obligations.ByteHelpersInvert := by
  refine ⟨fun w b0 b1 b2 b3 h => ?_, enc32_dec32, wordAt_eq_dec32⟩
  cases h
  exact dec32_enc32 w

end Sys2Proof.Proofs
end

