-- ==== Sys2Proof/Proofs/Indexer.lean ====
section
/-!
PROOFS. The chain of seeds as the iterates of the hash (R120), and the two indices of one hash value as remainders (R122
to R125). The obligations `ChainReseeds`, `HashIndexIsUnsignedRemainder`, `BitIndexIsLowThreeBits` and
`PairDeterminesHashResidue`.
-/

namespace Sys2Proof.Proofs
open Sys2Proof.Machine Sys2Proof.Claims

/-! ### The chain of seeds (R120) -/

/-- The value of round `r` is the hash, seeded with itself, `r + 1` times. -/
theorem chainFrom_getElem? (B : List Byte) (seed : Word) {r K : Nat} (h : r < K) :
    (chainFrom B seed K)[r]? = some ((hash32 B)^[r + 1] seed) := by
  induction K generalizing seed r with
  | zero => omega
  | succ K ih =>
    cases r with
    | zero => rfl
    | succ r => rw [chainFrom_succ, List.getElem?_cons_succ, ih _ (by omega), Function.iterate_succ_apply _ (r + 1)]

theorem chain_getElem? (B : List Byte) {r K : Nat} (h : r < K) :
    (chain B K)[r]? = some ((hash32 B)^[r + 1] 0) := chainFrom_getElem? B seed0 h

theorem take_chainFrom (B : List Byte) (seed : Word) {j K : Nat} (h : j ≤ K) :
    (chainFrom B seed K).take j = chainFrom B seed j := by
  induction K generalizing seed j with
  | zero => rw [Nat.le_zero.1 h, chainFrom_zero, List.take_nil]
  | succ K ih =>
    cases j with
    | zero => rfl
    | succ j => rw [chainFrom_succ, List.take_succ_cons, ih _ (by omega), chainFrom_succ]

/-- Settles O27: the rounds are iterates, so the next applies the hash once more and a fixed point stays. -/
theorem chainReseeds : Obligations.ChainReseeds := by
  refine fun B K => ⟨length_chainFrom B K seed0, fun hK => chain_getElem? B hK, fun r h hr hh => ?_,
    fun j hj => take_chainFrom B seed0 hj, fun r q h hh hfix hrq hq => ?_⟩
  · rw [chain_getElem? B (by omega), Option.some_inj] at hh
    rw [chain_getElem? B hr, Function.iterate_succ_apply', hh]
  · rw [chain_getElem? B (by omega), Option.some_inj] at hh
    obtain ⟨d, rfl⟩ := Nat.exists_eq_add_of_le' hrq
    rw [chain_getElem? B hq, Nat.add_assoc, Function.iterate_add_apply, hh, Function.iterate_fixed hfix]

/-! ### The bucket index of a hash (R124) -/

theorem emod_natCast (a n : Nat) : emod a n = a % n := by
  rw [emod, ← Int.natCast_mod, Int.toNat_natCast]

theorem bucketIndex_hash32 (B : List Byte) (seed : Word) (n : Nat) :
    bucketIndex (hash32 B seed) n = (hash32 B seed).toNat % n := by
  rw [bucketIndex_eq_emod, hash32_toInt, emod_natCast]

/-- Settles O29: the signed reading of a hash is its unsigned one, and bit 31 adds nothing. -/
theorem hashIndexIsUnsignedRemainder : Obligations.HashIndexIsUnsignedRemainder := by
  intro B seed n _
  have hlow : ((hash32 B seed).extractLsb' 0 31).toNat = (hash32 B seed).toNat := by
    rw [BitVec.extractLsb'_toNat, Nat.shiftRight_zero, Nat.mod_eq_of_lt (hash32_toNat_lt B seed)]
  rw [hlow]
  exact ⟨bucketIndex_hash32 B seed n, bucketIndex_hash32 B seed n⟩

/-! ### The bit index (R122) -/

theorem bitIndex_eq_emod (h : Word) : bitIndex h = emod h.toInt 8 := rfl

/-- The signed and the unsigned value differ by 2^32 at most, a multiple of 8. -/
theorem toInt_mod_eight (h : Word) : h.toInt % 8 = (h.toNat : Int) % 8 := by
  rw [BitVec.toInt_eq_toNat_cond]
  split <;> omega

theorem bitIndex_eq_low_bits (h : Word) : bitIndex h = (h.extractLsb' 0 3).toNat := by
  have hmod := (emod_cast h.toInt (n := 8) (by decide)).trans (toInt_mod_eight h)
  rw [bitIndex_eq_emod, BitVec.extractLsb'_toNat, Nat.shiftRight_zero]
  omega

/-- Settles O30, from the laws of `emod` at 8. -/
theorem bitIndexIsLowThreeBits : Obligations.BitIndexIsLowThreeBits :=
  fun h => ⟨emod_eq_sub_mul_fdiv h.toInt (n := 8) (by decide), bitIndex_eq_low_bits h,
    Nat.le_of_lt_succ (bitIndex_lt h)⟩

/-! ### The pair (R125) -/

theorem emod_eq_emod_iff {z z' : Int} {n : Nat} (hn : 1 ≤ n) : emod z n = emod z' n ↔ z ≡ z' [ZMOD n] := by
  rw [← Int.natCast_inj, emod_cast z hn, emod_cast z' hn, Int.ModEq]

/-- Settles O31: 8 and an odd `SIZE` are coprime, so the two remainders together are the one modulo their product. -/
theorem pairDeterminesHashResidue : Obligations.PairDeterminesHashResidue := by
  intro n h h' hodd
  have hcoprime : Nat.Coprime 8 n := Nat.Coprime.pow_left 3 (Nat.coprime_two_left.2 (Nat.odd_iff.2 hodd))
  rw [indexPair, indexPair, Prod.mk.injEq, bucketIndex_eq_emod, bucketIndex_eq_emod, bitIndex_eq_emod, bitIndex_eq_emod,
    emod_eq_emod_iff (by omega), emod_eq_emod_iff (by decide), and_comm]
  exact Int.modEq_and_modEq_iff_modEq_mul hcoprime

end Sys2Proof.Proofs
end
